-- ==== Sys2Proof/Word.lean ====
section
/-! DEFINITION. The widths of the CHIP-8 core (00_scope.md R3, 30_encoding.md R61). -/

namespace Sys2Proof

/-- A memory byte, a `V` register, a timer or a key level (8 bits, R3). -/
abbrev Byte := BitVec 8

/-- An opcode, `I`, `pc` or a stack entry (16 bits, R3). -/
abbrev Word := BitVec 16

/-- A 4-bit field of an opcode: a register index `x`, `y` or the height `n` (R61). -/
abbrev Nibble := BitVec 4

/-- The 12-bit address field `nnn` of an opcode (R61). -/
abbrev Addr12 := BitVec 12

end Sys2Proof
end

