-- ==== Sys2Proof/Syntax.lean ====
section
/-! DEFINITION. The 36 decode results of 30_encoding.md R64, with the fields R73 gives each, in the
table's priority order. -/

namespace Sys2Proof

/-- An instruction as the decoder delivers it (R64, R73). `x` and `y` are register indices, `kk` a
byte, `nnn` a 12-bit address, `n` a sprite height. -/
inductive Instr where
  /-- `00E0`, R130. -/
  | cls
  /-- `00EE`, R94. -/
  | ret
  /-- `0nnn` but for `00E0` and `00EE`, R90. -/
  | sys (nnn : Addr12)
  /-- `1nnn`, R92. -/
  | jump (nnn : Addr12)
  /-- `2nnn`, R93. -/
  | call (nnn : Addr12)
  /-- `3xkk`, R96. -/
  | skipEqByte (x : Nibble) (kk : Byte)
  /-- `4xkk`, R97. -/
  | skipNeByte (x : Nibble) (kk : Byte)
  /-- `6xkk`, R100. -/
  | loadByte (x : Nibble) (kk : Byte)
  /-- `7xkk`, R101. -/
  | addByte (x : Nibble) (kk : Byte)
  /-- `Annn`, R120. -/
  | loadI (nnn : Addr12)
  /-- `Bnnn`, R95. -/
  | jumpV0 (nnn : Addr12)
  /-- `Cxkk`, R111. -/
  | rand (x : Nibble) (kk : Byte)
  /-- `Dxyn`, R131. -/
  | draw (x y n : Nibble)
  /-- `5xy0`, R98. -/
  | skipEqReg (x y : Nibble)
  /-- `8xy0`, R102. -/
  | loadReg (x y : Nibble)
  /-- `8xy1`, R103. -/
  | orReg (x y : Nibble)
  /-- `8xy2`, R104. -/
  | andReg (x y : Nibble)
  /-- `8xy3`, R105. -/
  | xorReg (x y : Nibble)
  /-- `8xy4`, R106. -/
  | addReg (x y : Nibble)
  /-- `8xy5`, R107. -/
  | subReg (x y : Nibble)
  /-- `8xy6`, R108; `y` is carried and ignored (R68, R73). -/
  | shrReg (x y : Nibble)
  /-- `8xy7`, R109. -/
  | subnReg (x y : Nibble)
  /-- `8xyE`, R110; `y` is carried and ignored (R68, R73). -/
  | shlReg (x y : Nibble)
  /-- `9xy0`, R99. -/
  | skipNeReg (x y : Nibble)
  /-- `Ex9E`, R140. -/
  | skipIfKey (x : Nibble)
  /-- `ExA1`, R141. -/
  | skipIfNotKey (x : Nibble)
  /-- `Fx07`, R143. -/
  | loadDT (x : Nibble)
  /-- `Fx0A`, R142. -/
  | waitKey (x : Nibble)
  /-- `Fx15`, R144. -/
  | setDT (x : Nibble)
  /-- `Fx18`, R145. -/
  | setST (x : Nibble)
  /-- `Fx1E`, R121. -/
  | addI (x : Nibble)
  /-- `Fx29`, R122. -/
  | loadSprite (x : Nibble)
  /-- `Fx33`, R123. -/
  | bcd (x : Nibble)
  /-- `Fx55`, R124. -/
  | dumpRegs (x : Nibble)
  /-- `Fx65`, R125. -/
  | loadRegs (x : Nibble)
  /-- Every word no other row matches, R91; it carries nothing (R73, log entry 12). -/
  | noOp
  deriving DecidableEq, Repr

end Sys2Proof
end

