-- ==== Sys2Proof/WellFormed.lean ====
section
/-! DEFINITION. Which instruction terms are the decoding of some word (30_encoding.md R72). -/

namespace Sys2Proof

/-- R72: operands in range (the field types see to that) and, for `Sys(nnn)`, `nnn` neither 0x0E0
nor 0x0EE, since those two words are `Cls` and `Ret`. -/
def Instr.wellFormed : Instr → Bool
  | .sys nnn => nnn != 0x0E0#12 && nnn != 0x0EE#12
  | .cls | .ret | .noOp => true
  | .jump _ | .call _ | .loadI _ | .jumpV0 _ => true
  | .skipEqByte _ _ | .skipNeByte _ _ | .loadByte _ _ | .addByte _ _ | .rand _ _ => true
  | .draw _ _ _ => true
  | .skipEqReg _ _ | .skipNeReg _ _ | .loadReg _ _ | .orReg _ _ | .andReg _ _ | .xorReg _ _ => true
  | .addReg _ _ | .subReg _ _ | .shrReg _ _ | .subnReg _ _ | .shlReg _ _ => true
  | .skipIfKey _ | .skipIfNotKey _ | .loadDT _ | .waitKey _ | .setDT _ | .setST _ => true
  | .addI _ | .loadSprite _ | .bcd _ | .dumpRegs _ | .loadRegs _ => true

/-- The same check as a proposition. -/
abbrev Instr.WellFormed (i : Instr) : Prop := i.wellFormed = true

end Sys2Proof
end

