-- ==== Sys2Proof/Decode.lean ====
section
/-! DEFINITION. The decoder of 30_encoding.md R61 to R65 and R73, total on every 16-bit word, its
byte-level form, and after it the encoder of R72. -/

namespace Sys2Proof

/-- Field `c` of R61: `op[15:12]`, what mask 0xF000 selects. -/
def fieldClass (op : Word) : Nibble := op.extractLsb' 12 4

/-- Field `x` of R61: `op[11:8]`. -/
def fieldX (op : Word) : Nibble := op.extractLsb' 8 4

/-- Field `y` of R61: `op[7:4]`. -/
def fieldY (op : Word) : Nibble := op.extractLsb' 4 4

/-- Field `n` of R61: `op[3:0]`, the sub-operation that mask 0xF00F selects. -/
def fieldN (op : Word) : Nibble := op.extractLsb' 0 4

/-- Field `kk` of R61: `op[7:0]`, the sub-operation that mask 0xF0FF selects. -/
def fieldKk (op : Word) : Byte := op.extractLsb' 0 8

/-- Field `nnn` of R61: `op[11:0]`. -/
def fieldNnn (op : Word) : Addr12 := op.extractLsb' 0 12

/-- Class 8 (mask 0xF00F, R65): the register-to-register operations. -/
def decodeClass8 (x y n : Nibble) : Instr :=
  match n with
  | 0x0#4 => .loadReg x y
  | 0x1#4 => .orReg x y
  | 0x2#4 => .andReg x y
  | 0x3#4 => .xorReg x y
  | 0x4#4 => .addReg x y
  | 0x5#4 => .subReg x y
  | 0x6#4 => .shrReg x y
  | 0x7#4 => .subnReg x y
  | 0xE#4 => .shlReg x y
  | _ => .noOp

/-- Class E (mask 0xF0FF, R65, 90_conflicts.md C11): the key skips. -/
def decodeClassE (x : Nibble) (kk : Byte) : Instr :=
  match kk with
  | 0x9E#8 => .skipIfKey x
  | 0xA1#8 => .skipIfNotKey x
  | _ => .noOp

/-- Class F (mask 0xF0FF, R65, 90_conflicts.md C11). -/
def decodeClassF (x : Nibble) (kk : Byte) : Instr :=
  match kk with
  | 0x07#8 => .loadDT x
  | 0x0A#8 => .waitKey x
  | 0x15#8 => .setDT x
  | 0x18#8 => .setST x
  | 0x1E#8 => .addI x
  | 0x29#8 => .loadSprite x
  | 0x33#8 => .bcd x
  | 0x55#8 => .dumpRegs x
  | 0x65#8 => .loadRegs x
  | _ => .noOp

/-- `decode` of R65: exact matches first, then the class nibble, then the sub-operation of classes
5, 8, 9, E, F. Total; a word that nothing matches is `NoOp` (R63, R66). The opcode numbers of 29
instructions are the spec's own supply (UNVERIFIED, log entry 5). -/
def decodeWord (op : Word) : Instr :=
  if op = 0x00E0#16 then .cls
  else if op = 0x00EE#16 then .ret
  else
    match fieldClass op with
    | 0x0#4 => .sys (fieldNnn op)
    | 0x1#4 => .jump (fieldNnn op)
    | 0x2#4 => .call (fieldNnn op)
    | 0x3#4 => .skipEqByte (fieldX op) (fieldKk op)
    | 0x4#4 => .skipNeByte (fieldX op) (fieldKk op)
    | 0x5#4 => if fieldN op = 0#4 then .skipEqReg (fieldX op) (fieldY op) else .noOp
    | 0x6#4 => .loadByte (fieldX op) (fieldKk op)
    | 0x7#4 => .addByte (fieldX op) (fieldKk op)
    | 0x8#4 => decodeClass8 (fieldX op) (fieldY op) (fieldN op)
    | 0x9#4 => if fieldN op = 0#4 then .skipNeReg (fieldX op) (fieldY op) else .noOp
    | 0xA#4 => .loadI (fieldNnn op)
    | 0xB#4 => .jumpV0 (fieldNnn op)
    | 0xC#4 => .rand (fieldX op) (fieldKk op)
    | 0xD#4 => .draw (fieldX op) (fieldY op) (fieldN op)
    | 0xE#4 => decodeClassE (fieldX op) (fieldKk op)
    | _ => decodeClassF (fieldX op) (fieldKk op)

/-- Why a byte sequence is no instruction: R60 gives every instruction two bytes. -/
inductive DecodeError where
  /-- Fewer than two bytes are left. Raised by `decodeBytes` only: a fetch always has two. -/
  | truncated
  deriving DecidableEq, Repr

/-- The opcode of two consecutive bytes, the byte at the lower address high (R43, R60, log entry 6). -/
def wordOfBytes (hi lo : Byte) : Word := hi ++ lo

/-- Decode the instruction at the front of a byte sequence and give the rest of it (R60, R65). -/
def decodeBytes : List Byte → Except DecodeError (Instr × List Byte)
  | hi :: lo :: rest => .ok (decodeWord (wordOfBytes hi lo), rest)
  | [_] => .error .truncated
  | [] => .error .truncated

/-- A word of format NNN (R62): class and address. -/
def wordNnn (c : Nibble) (nnn : Addr12) : Word := c ++ nnn

/-- A word of format XKK or X (R62): class, `x` and low byte. -/
def wordXkk (c x : Nibble) (kk : Byte) : Word := c ++ x ++ kk

/-- A word of format XYN or XY (R62): class, `x`, `y` and low nibble. -/
def wordXyn (c x y n : Nibble) : Word := c ++ x ++ y ++ n

/-- `encode` of R72: the value of the row in R64 with the fields at their places (R61, R62).
`NoOp` has no canonical word; R72 uses 0x5001 when it needs one. -/
def encode : Instr → Word
  | .cls => 0x00E0#16
  | .ret => 0x00EE#16
  | .sys nnn => wordNnn 0x0#4 nnn
  | .jump nnn => wordNnn 0x1#4 nnn
  | .call nnn => wordNnn 0x2#4 nnn
  | .skipEqByte x kk => wordXkk 0x3#4 x kk
  | .skipNeByte x kk => wordXkk 0x4#4 x kk
  | .loadByte x kk => wordXkk 0x6#4 x kk
  | .addByte x kk => wordXkk 0x7#4 x kk
  | .loadI nnn => wordNnn 0xA#4 nnn
  | .jumpV0 nnn => wordNnn 0xB#4 nnn
  | .rand x kk => wordXkk 0xC#4 x kk
  | .draw x y n => wordXyn 0xD#4 x y n
  | .skipEqReg x y => wordXyn 0x5#4 x y 0x0#4
  | .loadReg x y => wordXyn 0x8#4 x y 0x0#4
  | .orReg x y => wordXyn 0x8#4 x y 0x1#4
  | .andReg x y => wordXyn 0x8#4 x y 0x2#4
  | .xorReg x y => wordXyn 0x8#4 x y 0x3#4
  | .addReg x y => wordXyn 0x8#4 x y 0x4#4
  | .subReg x y => wordXyn 0x8#4 x y 0x5#4
  | .shrReg x y => wordXyn 0x8#4 x y 0x6#4
  | .subnReg x y => wordXyn 0x8#4 x y 0x7#4
  | .shlReg x y => wordXyn 0x8#4 x y 0xE#4
  | .skipNeReg x y => wordXyn 0x9#4 x y 0x0#4
  | .skipIfKey x => wordXkk 0xE#4 x 0x9E#8
  | .skipIfNotKey x => wordXkk 0xE#4 x 0xA1#8
  | .loadDT x => wordXkk 0xF#4 x 0x07#8
  | .waitKey x => wordXkk 0xF#4 x 0x0A#8
  | .setDT x => wordXkk 0xF#4 x 0x15#8
  | .setST x => wordXkk 0xF#4 x 0x18#8
  | .addI x => wordXkk 0xF#4 x 0x1E#8
  | .loadSprite x => wordXkk 0xF#4 x 0x29#8
  | .bcd x => wordXkk 0xF#4 x 0x33#8
  | .dumpRegs x => wordXkk 0xF#4 x 0x55#8
  | .loadRegs x => wordXkk 0xF#4 x 0x65#8
  | .noOp => 0x5001#16

/-- A row of the opcode map (R64): a word matches when `op AND mask = value`; `variant` takes the
fields out of a matching word. -/
structure TableRow where
  mask : Word
  value : Word
  variant : Word → Instr

/-- A row of format NNN (R62). -/
def rowNnn (value : Word) (make : Addr12 → Instr) : TableRow :=
  ⟨0xF000#16, value, fun op => make (fieldNnn op)⟩

/-- A row of format XKK (R62). -/
def rowXkk (value : Word) (make : Nibble → Byte → Instr) : TableRow :=
  ⟨0xF000#16, value, fun op => make (fieldX op) (fieldKk op)⟩

/-- A row of format XY (R62). -/
def rowXy (value : Word) (make : Nibble → Nibble → Instr) : TableRow :=
  ⟨0xF00F#16, value, fun op => make (fieldX op) (fieldY op)⟩

/-- A row of format X (R62). -/
def rowX (value : Word) (make : Nibble → Instr) : TableRow :=
  ⟨0xF0FF#16, value, fun op => make (fieldX op)⟩

/-- Rows 1 to 35 of the opcode map in matching priority (R64). -/
def opcodeTable : List TableRow :=
  [⟨0xFFFF#16, 0x00E0#16, fun _ => .cls⟩, ⟨0xFFFF#16, 0x00EE#16, fun _ => .ret⟩] ++
  [rowNnn 0x0000#16 .sys, rowNnn 0x1000#16 .jump, rowNnn 0x2000#16 .call,
    rowXkk 0x3000#16 .skipEqByte, rowXkk 0x4000#16 .skipNeByte, rowXkk 0x6000#16 .loadByte,
    rowXkk 0x7000#16 .addByte, rowNnn 0xA000#16 .loadI, rowNnn 0xB000#16 .jumpV0,
    rowXkk 0xC000#16 .rand,
    ⟨0xF000#16, 0xD000#16, fun op => .draw (fieldX op) (fieldY op) (fieldN op)⟩] ++
  [rowXy 0x5000#16 .skipEqReg, rowXy 0x8000#16 .loadReg, rowXy 0x8001#16 .orReg,
    rowXy 0x8002#16 .andReg, rowXy 0x8003#16 .xorReg, rowXy 0x8004#16 .addReg,
    rowXy 0x8005#16 .subReg, rowXy 0x8006#16 .shrReg, rowXy 0x8007#16 .subnReg,
    rowXy 0x800E#16 .shlReg, rowXy 0x9000#16 .skipNeReg] ++
  [rowX 0xE09E#16 .skipIfKey, rowX 0xE0A1#16 .skipIfNotKey, rowX 0xF007#16 .loadDT,
    rowX 0xF00A#16 .waitKey, rowX 0xF015#16 .setDT, rowX 0xF018#16 .setST, rowX 0xF01E#16 .addI,
    rowX 0xF029#16 .loadSprite, rowX 0xF033#16 .bcd, rowX 0xF055#16 .dumpRegs,
    rowX 0xF065#16 .loadRegs]

/-- `op AND mask = value` (R63). -/
def TableRow.matches (row : TableRow) (op : Word) : Bool := op &&& row.mask == row.value

/-- The opcode map read top to bottom: the first matching row decides, and `NoOp` is what no row
matches (R63). `decodeWord` is the same function written as R65 writes it. -/
def walkTable (op : Word) : Instr :=
  match opcodeTable.find? (fun row => row.matches op) with
  | some row => row.variant op
  | none => .noOp

/-- The two bytes of a word as memory holds them: `op[15:8]` at the lower address (R43, R60). -/
def bytesOfWord (w : Word) : List Byte := [w.extractLsb' 8 8, w.extractLsb' 0 8]

/-- The 16-bit word of an instruction whose low `nbits` bits are those of `w` and whose other bits
are 0. Every instruction is one 16-bit word (R60). -/
def tableWord (nbits w : Nat) : Word := BitVec.ofNat 16 (w % 2 ^ nbits)

/-- What the decoder reads from the opcode-table word `w`, laid out high byte first (R43). -/
def decodeTableWord (nbits w : Nat) : Option Instr :=
  match decodeBytes (bytesOfWord (tableWord nbits w)) with
  | .ok (i, _) => some i
  | .error _ => none

end Sys2Proof
end

