-- ==== Sys2Proof/Config.lean ====
section
/-! DEFINITION. The sizes that 00_scope.md R3 fixes, and the one free value of the model. -/

namespace Sys2Proof

/-- `MEM_SIZE` of R3: addresses 0x000 to 0xFFF. -/
def Config.memSize : Nat := 4096

/-- `FONT_BASE` of R3. -/
def Config.fontBase : Nat := 0x050

/-- `FONT_SIZE` of R3: 16 glyphs of 5 bytes. -/
def Config.fontSize : Nat := 80

/-- `PROG_BASE` of R3, where `load` puts a program. -/
def Config.progBase : Nat := 0x200

/-- `GFX_W` of R3. -/
def Config.gfxWidth : Nat := 64

/-- `GFX_H` of R3. -/
def Config.gfxHeight : Nat := 32

/-- `STACK_DEPTH` of R3. -/
def Config.stackDepth : Nat := 16

/-- DESIGN CHOICE (log entry 1, safe): the random byte of a tick whose `rnd` no host transaction
has fixed. It has no value here: R28 makes `rnd` a free input and R111 lets a claim assume nothing
about it. The argument is the number of free bytes drawn before (`State.draws`). -/
opaque Config.rnd : Nat → Byte

end Sys2Proof
end

