-- ==== Sys2Proof/Machine/State.lean ====
section
/-! DEFINITION. The state of the CHIP-8 core (10_state.md R10 to R28) as plain data, the reasons a
step can stop, and the state right after reset (R30, R180). -/

namespace Sys2Proof.Machine

/-- The three values of the `fault` latch (10_state.md R27). They are state, not the end of a run:
the spec gives the whole state after a fault (60_exceptions.md R152). -/
inductive FaultLatch where
  /-- No fault: the core runs. Safe: what reset leaves (R30). -/
  | none
  /-- `Call` with `sp = 16` (R93, R150). Set by `State.takeFault` only. -/
  | stackOverflow
  /-- `Ret` with `sp = 0` (R94, R150). Set by `State.takeFault` only. -/
  | stackUnderflow
  deriving DecidableEq, Repr

/-- Memory: the bytes that differ from the reset contents, sorted by address without repeats. -/
abbrev Memory := List Host.Cell

/-- The whole state of the core (R10), and two fields of the model for the input `rnd` (R28). -/
structure State where
  /-- `mem` (R25): what an unlisted address reads as is `unlistedByte` in Machine/Ops.lean. -/
  mem : Memory
  /-- `V[0..15]` (R11); `V[15]` is also the flag `VF` (R12). -/
  v : Vector Byte 16
  /-- `I` (R18). -/
  i : Word
  /-- `pc` (R14). -/
  pc : Word
  /-- `stack[0..15]` (R19). -/
  stack : Vector Word 16
  /-- `sp`, an integer 0 to 16 (R20, log entry 11). -/
  sp : Fin 17
  /-- `gfx` (R23), a row per element: pixel `(px, py)`, cell `py*64 + px`, is bit `px` of row `py`
  (log entry 10). -/
  gfx : Vector (BitVec 64) 32
  /-- `DT` (R21). -/
  dt : Byte
  /-- `ST` (R22). -/
  st : Byte
  /-- `keypad[0..15]` (R24): 0 is released, anything else pressed. Written by the host only. -/
  keypad : Vector Byte 16
  /-- `fault` (R27). -/
  fault : FaultLatch
  /-- The model's own: the `rnd` bytes a host has fixed for the coming ticks, oldest first (R28,
  R162, log entry 1). Empty means that the byte of the next tick is free. -/
  rndIn : List Byte
  /-- The model's own: how many free `rnd` bytes were drawn (log entry 1). -/
  draws : Nat
  deriving DecidableEq, Repr

/-- Why a step could stop the machine without a next state. No constructor: 00_scope.md R9 gives
every instruction a next state, or a stack fault whose state R152 gives (the latch above). Safe. -/
inductive Fault where
  deriving DecidableEq, Repr

/-- Why the model could have no meaning for an instruction. -/
inductive Refusal where
  /-- An arm of `exec` whose instruction has no meaning yet, by its mnemonic. No arm raises it in
  this model. Safe: it only stops. -/
  | notModelled (mnemonic : String)
  deriving DecidableEq, Repr

/-- The state right after reset (10_state.md R30, 70_reset_and_hazards.md R180): memory lists
nothing, so every byte reads as its reset contents; `pc = 0x200`; all else 0. The last two fields
are the model's own (DESIGN CHOICE, log entry 2). -/
def State.reset : State where
  mem := []
  v := Vector.replicate 16 0#8
  i := 0#16
  pc := 0x200#16
  stack := Vector.replicate 16 0#16
  sp := 0
  gfx := Vector.replicate 32 0#64
  dt := 0#8
  st := 0#8
  keypad := Vector.replicate 16 0#8
  fault := .none
  rndIn := []
  draws := 0

end Sys2Proof.Machine
end

