-- ==== Sys2Proof/Machine/Ops.lean ====
section
/-! DEFINITION. The named operations over memory, registers, stack, framebuffer, timers and the
fault latch. Every read and write of an instruction goes through one of them. -/

namespace Sys2Proof.Machine

/-! ### Memory -/

/-- The byte that memory holds at `a < 4096`: the listed one, else the reset contents. -/
def Memory.lookup : Memory → Nat → Byte
  | [], a => unlistedByte a
  | (b, w) :: rest, a => if b = a then w else Memory.lookup rest a

/-- Memory without any entry for `a`, so that `a` reads as its reset contents. -/
def Memory.erase (m : Memory) (a : Nat) : Memory := m.filter (fun c => c.1 != a)

/-- Put an entry before the first one at a higher address. -/
def Memory.insert : Memory → Nat → Byte → Memory
  | [], a, b => [(a, b)]
  | c :: rest, a, b => if a < c.1 then (a, b) :: c :: rest else c :: Memory.insert rest a b

/-- Set the byte at `a`, keeping the canonical form: the reset contents are never listed. -/
def Memory.store (m : Memory) (a : Nat) (b : Byte) : Memory :=
  if b = unlistedByte a then m.erase a else (m.erase a).insert a b

/-- The canonical form: addresses strictly rising and inside the address space, no entry equal to
what its address reads as unlisted. -/
abbrev Memory.wf (m : Memory) : Prop :=
  m.Pairwise (fun c d => c.1 < d.1) ∧ ∀ c ∈ m, c.1 < Config.memSize ∧ c.2 ≠ unlistedByte c.1

/-- `MemRead(addr, 1)` of 20_memory.md R41: any address, reduced mod 4096 (log entry 7). -/
def State.readByte (s : State) (addr : Nat) : Byte := s.mem.lookup (addr % Config.memSize)

/-- `MemWrite(addr, 1, v)` of 20_memory.md R42: any address, reduced mod 4096 (log entry 7). -/
def State.writeByte (s : State) (addr : Nat) (b : Byte) : State :=
  { s with mem := s.mem.store (addr % Config.memSize) b }

/-- Byte writes at `addr`, `addr + 1`, ... in increasing address order (20_memory.md R46). -/
def State.writeBytes (s : State) (addr : Nat) : List Byte → State
  | [] => s
  | b :: rest => (s.writeByte addr b).writeBytes (addr + 1) rest

/-! ### Registers -/

/-- `V[x]` (R11). No register is hardwired. -/
def State.getV (s : State) (x : Nibble) : Byte := s.v[x.toNat]'x.isLt

/-- `V[x] <- b` (R11). -/
def State.setV (s : State) (x : Nibble) (b : Byte) : State :=
  { s with v := s.v.set x.toNat b x.isLt }

/-- `I <- w` (R18). -/
def State.setI (s : State) (w : Word) : State := { s with i := w }

/-- `pc <- w` (R14). -/
def State.setPc (s : State) (w : Word) : State := { s with pc := w }

/-- `pc <- (pc + 2) mod 65536`: the advance of 40_tick_cycle.md R82, and what a taken skip adds. -/
def State.advancePc (s : State) : State := s.setPc (s.pc + 2#16)

/-- `pc <- (pc - 2) mod 65536`: back to the instruction being executed (45_keypad_timers.md R142). -/
def State.rewindPc (s : State) : State := s.setPc (s.pc - 2#16)

/-- `DT <- b` (R21). -/
def State.setDT (s : State) (b : Byte) : State := { s with dt := b }

/-- `ST <- b` (R22). -/
def State.setST (s : State) (b : Byte) : State := { s with st := b }

/-! ### The call stack -/

/-- Push a return address: `stack[sp] <- w; sp <- sp + 1` (R93). `none` when `sp = 16`. -/
def State.push (s : State) (w : Word) : Option State :=
  if h : s.sp.val < 16 then
    some { s with stack := s.stack.set s.sp.val w h, sp := ⟨s.sp.val + 1, Nat.succ_lt_succ h⟩ }
  else none

/-- Pop a return address: `sp <- sp - 1`, and the entry at the new `sp`, which keeps its value
(R94, R19). `none` when `sp = 0`. -/
def State.pop (s : State) : Option (Word × State) :=
  if h : 0 < s.sp.val then
    let top := s.sp.val - 1
    have below : top < 16 := by have := s.sp.isLt; omega
    some (s.stack[top], { s with sp := ⟨top, Nat.lt_succ_of_lt below⟩ })
  else none

/-! ### The framebuffer -/

/-- `gfx[k]` (R23): cell `k = py*64 + px`. Nothing is lit outside the 2048 cells. -/
def State.pixel (s : State) (k : Nat) : Bool :=
  if h : k / 64 < 32 then s.gfx[k / 64].getLsbD (k % 64) else false

/-- `gfx[k] <- gfx[k] XOR 1` (R131). -/
def State.flipPixel (s : State) (k : Nat) : State :=
  if h : k / 64 < 32 then
    { s with gfx := s.gfx.set (k / 64) (s.gfx[k / 64] ^^^ BitVec.twoPow 64 (k % 64)) h }
  else s

/-- Every cell of `gfx` set to 0 (R130). -/
def State.clearGfx (s : State) : State := { s with gfx := Vector.replicate 32 0#64 }

/-! ### The random byte -/

/-- `rnd` of the tick in progress (R28): the byte the host fixed, else a free one (log entry 1). -/
def State.rnd (s : State) : Byte :=
  match s.rndIn with
  | b :: _ => b
  | [] => Config.rnd s.draws

/-- Count a free `rnd` byte as drawn, so that no later tick reads it again. -/
def State.countDraw (s : State) : State :=
  match s.rndIn with
  | _ :: _ => s
  | [] => { s with draws := s.draws + 1 }

/-- The byte supplied with a tick is gone when the tick ends (R28, R162). -/
def State.dropRnd (s : State) : State := { s with rndIn := s.rndIn.tail }

/-! ### The timers -/

/-- One count of a timer: 0 stays 0 (40_tick_cycle.md R85). -/
def countDown (b : Byte) : Byte := if b = 0#8 then 0#8 else b - 1#8

/-- The decrement of both timers at the end of a tick (R85). -/
def State.decrementTimers (s : State) : State :=
  { s with dt := countDown s.dt, st := countDown s.st }

/-- What ends a tick that raised no fault: the timers count (R85), the tick's `rnd` is gone. -/
def State.endTick (s : State) : State := s.decrementTimers.dropRnd

/-! ### Faults -/

/-- FAULT ENTRY (60_exceptions.md R152, 40_tick_cycle.md R84), raised while an instruction executes,
before it has written anything: `pc`, which the tick has advanced by 2 (R82), goes back to the
instruction's address, the latch takes the fault, nothing else changes. There is no return from a
fault (R153): only the host's reset clears the latch. -/
def State.takeFault (s : State) (f : FaultLatch) : State :=
  { s.rewindPc with fault := f }

/-- The code of a latch value that the host reads (10_state.md R27). -/
def FaultLatch.code : FaultLatch → Nat
  | .none => 0
  | .stackOverflow => 1
  | .stackUnderflow => 2

/-! ### Fetch -/

/-- `MemRead(pc, 2)` (20_memory.md R43, 40_tick_cycle.md R81): the byte at `pc` is the high one. -/
def State.fetchWord (s : State) : Word :=
  wordOfBytes (s.readByte s.pc.toNat) (s.readByte (s.pc.toNat + 1))

/-- The instruction a tick executes (40_tick_cycle.md R83). -/
def State.fetchInstr (s : State) : Instr := decodeWord s.fetchWord

/-- The state with one instruction word placed where the next tick fetches, and no fault latched,
since a faulted core fetches nothing (R86, log entry 4). -/
def State.placeWord (s : State) (w : Word) : State :=
  { s.writeBytes s.pc.toNat (bytesOfWord w) with fault := .none }

end Sys2Proof.Machine
end

