-- ==== Sys2Proof/Machine/Operands.lean ====
section
/-! DEFINITION. The operand forms of the instruction set (30_encoding.md R69, 43_index_memory.md
R126, 45_keypad_timers.md R147). A register operand is `State.getV`. -/

namespace Sys2Proof.Machine

/-- An immediate address, zero-extended to 16 bits (R69). -/
def immAddr (nnn : Addr12) : Word := nnn.setWidth 16

/-- A register or immediate byte, zero-extended to 16 bits (R69). -/
def zext16 (b : Byte) : Word := b.setWidth 16

/-- Index plus offset, the one data addressing mode (R126): `I + k` before the reduction mod 4096
that every byte access makes. -/
def State.effAddr (s : State) (k : Nat) : Nat := s.i.toNat + k

/-- The address `(I + k) mod 4096` of R126. -/
def State.effAddrMasked (s : State) (k : Nat) : Nat := s.effAddr k % Config.memSize

/-- `pressed(k)`: `keypad[k] != 0` (R24). -/
def State.pressed (s : State) (k : Nat) : Bool := s.keypad[k % 16]'(Nat.mod_lt _ (by decide)) != 0#8

/-- The key a byte selects: its low four bits (R147, log entry 16). -/
def keyIndex (b : Byte) : Nat := b.toNat % 16

/-- The least pressed key, if any (R142). -/
def State.firstKey (s : State) : Option Nat := (List.range 16).find? s.pressed

/-- The register with index `k`, for the register lists of the bulk transfers (R124, R125). -/
def regIndex (k : Nat) : Nibble := BitVec.ofNat 4 k

end Sys2Proof.Machine
end

