-- ==== Sys2Proof/Machine/Flags.lean ====
section
/-! DEFINITION. The flag computations of 10_state.md R17 and the order in which a flag and a result
are written (00_scope.md R6). -/

namespace Sys2Proof.Machine

/-- The flag register `VF` (R12). -/
def vf : Nibble := 15#4

/-- A flag as the byte `VF` holds: 1 or 0 (R12). -/
def flagByte (b : Bool) : Byte := if b then 1#8 else 0#8

/-- `AddReg` (R106, R112): decided on the mathematical sum. -/
def carry (a b : Byte) : Bool := decide (a.toNat + b.toNat > 255)

/-- `SubReg`, `SubnReg` (R113): minuend strictly greater than subtrahend (log entry 15). -/
def noBorrow (minuend subtrahend : Byte) : Bool := decide (minuend.toNat > subtrahend.toNat)

/-- `ShrReg` (R108): the bit that a right shift moves out. -/
def lowBit (a : Byte) : Bool := a.getLsbD 0

/-- `ShlReg` (R110): the bit that a left shift moves out. -/
def highBit (a : Byte) : Bool := a.getLsbD 7

/-- Flag first, result second (R6, log entry 9): with `x = 15` the result is what `VF` holds. -/
def State.writeFlagged (s : State) (flag : Bool) (x : Nibble) (result : Byte) : State :=
  (s.setV vf (flagByte flag)).setV x result

end Sys2Proof.Machine
end

