-- ==== Sys2Proof/Machine/Alu.lean ====
section
/-! DEFINITION. The ALU and register-file instructions (42_alu.md R100 to R113). Arithmetic on
bytes wraps mod 256 (R4, R112). -/

namespace Sys2Proof.Machine

/-- R100. -/
def execLoadByte (x : Nibble) (kk : Byte) (s : State) : Host.Outcome State Fault Refusal :=
  .next (s.setV x kk)

/-- R101: no flag. -/
def execAddByte (x : Nibble) (kk : Byte) (s : State) : Host.Outcome State Fault Refusal :=
  .next (s.setV x (s.getV x + kk))

/-- R102. -/
def execLoadReg (x y : Nibble) (s : State) : Host.Outcome State Fault Refusal :=
  .next (s.setV x (s.getV y))

/-- R103. -/
def execOrReg (x y : Nibble) (s : State) : Host.Outcome State Fault Refusal :=
  .next (s.setV x (s.getV x ||| s.getV y))

/-- R104. -/
def execAndReg (x y : Nibble) (s : State) : Host.Outcome State Fault Refusal :=
  .next (s.setV x (s.getV x &&& s.getV y))

/-- R105. -/
def execXorReg (x y : Nibble) (s : State) : Host.Outcome State Fault Refusal :=
  .next (s.setV x (s.getV x ^^^ s.getV y))

/-- R106: the old `VF` is no carry input. -/
def execAddReg (x y : Nibble) (s : State) : Host.Outcome State Fault Refusal :=
  .next (s.writeFlagged (carry (s.getV x) (s.getV y)) x (s.getV x + s.getV y))

/-- R107. -/
def execSubReg (x y : Nibble) (s : State) : Host.Outcome State Fault Refusal :=
  .next (s.writeFlagged (noBorrow (s.getV x) (s.getV y)) x (s.getV x - s.getV y))

/-- R108: `V[y]` is not read (R68). -/
def execShrReg (x _y : Nibble) (s : State) : Host.Outcome State Fault Refusal :=
  .next (s.writeFlagged (lowBit (s.getV x)) x (s.getV x >>> 1))

/-- R109. -/
def execSubnReg (x y : Nibble) (s : State) : Host.Outcome State Fault Refusal :=
  .next (s.writeFlagged (noBorrow (s.getV y) (s.getV x)) x (s.getV y - s.getV x))

/-- R110: `V[y]` is not read (R68). -/
def execShlReg (x _y : Nibble) (s : State) : Host.Outcome State Fault Refusal :=
  .next (s.writeFlagged (highBit (s.getV x)) x (s.getV x <<< 1))

/-- R111, with the tick's `rnd` (R28). -/
def execRand (x : Nibble) (kk : Byte) (s : State) : Host.Outcome State Fault Refusal :=
  .next (s.countDraw.setV x (s.rnd &&& kk))

end Sys2Proof.Machine
end

