-- ==== Sys2Proof/Machine/ControlFlow.lean ====
section
/-! DEFINITION. The control-flow instructions (41_control_flow.md R90 to R99). In every meaning
`s.pc` is already the address of the following instruction (40_tick_cycle.md R82). -/

namespace Sys2Proof.Machine

/-- A skip: `pc + 2` more where the condition holds (41_control_flow.md, "The four skips"). -/
def State.skipIf (s : State) (cond : Bool) : State := if cond then s.advancePc else s

/-- R90. -/
def execSys (_nnn : Addr12) (s : State) : Host.Outcome State Fault Refusal := .next s

/-- R91. -/
def execNoOp (s : State) : Host.Outcome State Fault Refusal := .next s

/-- R92. -/
def execJump (nnn : Addr12) (s : State) : Host.Outcome State Fault Refusal :=
  .next (s.setPc (immAddr nnn))

/-- R93: a full stack takes `StackOverflow`. -/
def execCall (nnn : Addr12) (s : State) : Host.Outcome State Fault Refusal :=
  match s.push s.pc with
  | some t => .next (t.setPc (immAddr nnn))
  | none => .next (s.takeFault .stackOverflow)

/-- R94: an empty stack takes `StackUnderflow`. -/
def execRet (s : State) : Host.Outcome State Fault Refusal :=
  match s.pop with
  | some (target, t) => .next (t.setPc target)
  | none => .next (s.takeFault .stackUnderflow)

/-- R95: always `V0`. -/
def execJumpV0 (nnn : Addr12) (s : State) : Host.Outcome State Fault Refusal :=
  .next (s.setPc (immAddr nnn + zext16 (s.getV 0#4)))

/-- R96. -/
def execSkipEqByte (x : Nibble) (kk : Byte) (s : State) : Host.Outcome State Fault Refusal :=
  .next (s.skipIf (s.getV x == kk))

/-- R97. -/
def execSkipNeByte (x : Nibble) (kk : Byte) (s : State) : Host.Outcome State Fault Refusal :=
  .next (s.skipIf (s.getV x != kk))

/-- R98. -/
def execSkipEqReg (x y : Nibble) (s : State) : Host.Outcome State Fault Refusal :=
  .next (s.skipIf (s.getV x == s.getV y))

/-- R99. -/
def execSkipNeReg (x y : Nibble) (s : State) : Host.Outcome State Fault Refusal :=
  .next (s.skipIf (s.getV x != s.getV y))

end Sys2Proof.Machine
end

