-- ==== Sys2Proof/Machine/Display.lean ====
section
/-! DEFINITION. The display instructions (44_display.md R130 to R135). -/

namespace Sys2Proof.Machine

/-- The cell of R131's loop: `((vy + row) mod 32) * 64 + (vx + bit) mod 64`. The sums are formed on
integers, so nothing is clipped and nothing wraps at 256. -/
def spriteCell (vx vy row bit : Nat) : Nat := ((vy + row) % 32) * 64 + (vx + bit) % 64

/-- One bit of a sprite row (R131): a 0 bit leaves its pixel alone; a 1 bit on a lit pixel is a
collision, and flips the pixel. Carries the screen and the collision seen so far. -/
def drawBit (vx vy row : Nat) (b : Byte) (acc : State × Bool) (bit : Nat) : State × Bool :=
  if b.getLsbD (7 - bit) then
    (acc.1.flipPixel (spriteCell vx vy row bit), acc.2 || acc.1.pixel (spriteCell vx vy row bit))
  else acc

/-- One sprite row of 8 pixels, most significant bit first (R131). -/
def drawRow (vx vy : Nat) (acc : State × Bool) (row : Nat) : State × Bool :=
  (List.range 8).foldl (drawBit vx vy row (acc.1.readByte (acc.1.effAddr row))) acc

/-- The rows `0..n-1` of a sprite at `(vx, vy)` (R131). -/
def drawSprite (vx vy n : Nat) (s : State) : State × Bool :=
  (List.range n).foldl (drawRow vx vy) (s, false)

/-- R130: `VF` is not written. -/
def execCls (s : State) : Host.Outcome State Fault Refusal := .next s.clearGfx

/-- R131: coordinates latched first (R5), `VF` written once, at the end (log entry 9). -/
def execDraw (x y n : Nibble) (s : State) : Host.Outcome State Fault Refusal :=
  let drawn := drawSprite (s.getV x).toNat (s.getV y).toNat n.toNat s
  .next (drawn.1.setV vf (flagByte drawn.2))

end Sys2Proof.Machine
end

