-- ==== Sys2Proof/Machine/IndexMemory.lean ====
section
/-! DEFINITION. The index-register and memory instructions (43_index_memory.md R120 to R126).
`I` is never changed by an access (R126). -/

namespace Sys2Proof.Machine

/-- The three decimal digits of a byte, hundreds first (R123). -/
def bcdDigits (b : Byte) : List Byte :=
  [BitVec.ofNat 8 (b.toNat / 100), BitVec.ofNat 8 (b.toNat / 10 % 10), BitVec.ofNat 8 (b.toNat % 10)]

/-- The address of glyph `b`: `0x050 + 5*b`, the whole byte and no nibble mask (R122, log entry 17). -/
def glyphAddr (b : Byte) : Word := BitVec.ofNat 16 (Config.fontBase + 5 * b.toNat)

/-- The values of `V[0..x]`, in register order (R124). -/
def State.regsUpTo (s : State) (x : Nibble) : List Byte :=
  (List.range (x.toNat + 1)).map (fun k => s.getV (regIndex k))

/-- Registers `V[k], V[k+1], ...` loaded from a list of bytes, in register order (R125). -/
def State.setRegs (s : State) (k : Nat) : List Byte → State
  | [] => s
  | b :: rest => (s.setV (regIndex k) b).setRegs (k + 1) rest

/-- The `n` bytes at `I`, `I + 1`, ... (R46). -/
def State.bytesAtI (s : State) (n : Nat) : List Byte :=
  (List.range n).map (fun k => s.readByte (s.effAddr k))

/-- R120. -/
def execLoadI (nnn : Addr12) (s : State) : Host.Outcome State Fault Refusal :=
  .next (s.setI (immAddr nnn))

/-- R121: 16-bit wrap, no flag. -/
def execAddI (x : Nibble) (s : State) : Host.Outcome State Fault Refusal :=
  .next (s.setI (s.i + zext16 (s.getV x)))

/-- R122. -/
def execLoadSprite (x : Nibble) (s : State) : Host.Outcome State Fault Refusal :=
  .next (s.setI (glyphAddr (s.getV x)))

/-- R123. -/
def execBcd (x : Nibble) (s : State) : Host.Outcome State Fault Refusal :=
  .next (s.writeBytes (s.effAddr 0) (bcdDigits (s.getV x)))

/-- R124. -/
def execDumpRegs (x : Nibble) (s : State) : Host.Outcome State Fault Refusal :=
  .next (s.writeBytes (s.effAddr 0) (s.regsUpTo x))

/-- R125. -/
def execLoadRegs (x : Nibble) (s : State) : Host.Outcome State Fault Refusal :=
  .next (s.setRegs 0 (s.bytesAtI (x.toNat + 1)))

end Sys2Proof.Machine
end

