-- ==== Sys2Proof/Machine/KeypadTimers.lean ====
section
/-! DEFINITION. The keypad and timer instructions (45_keypad_timers.md R140 to R147). -/

namespace Sys2Proof.Machine

/-- R140, R147. -/
def execSkipIfKey (x : Nibble) (s : State) : Host.Outcome State Fault Refusal :=
  .next (s.skipIf (s.pressed (keyIndex (s.getV x))))

/-- R141, R147. -/
def execSkipIfNotKey (x : Nibble) (s : State) : Host.Outcome State Fault Refusal :=
  .next (s.skipIf (!s.pressed (keyIndex (s.getV x))))

/-- R142: with no key down, back to this instruction. -/
def execWaitKey (x : Nibble) (s : State) : Host.Outcome State Fault Refusal :=
  match s.firstKey with
  | some k => .next (s.setV x (BitVec.ofNat 8 k))
  | none => .next s.rewindPc

/-- R143: the value before this tick's decrement (R87). -/
def execLoadDT (x : Nibble) (s : State) : Host.Outcome State Fault Refusal :=
  .next (s.setV x s.dt)

/-- R144. -/
def execSetDT (x : Nibble) (s : State) : Host.Outcome State Fault Refusal :=
  .next (s.setDT (s.getV x))

/-- R145. -/
def execSetST (x : Nibble) (s : State) : Host.Outcome State Fault Refusal :=
  .next (s.setST (s.getV x))

end Sys2Proof.Machine
end

