-- ==== Sys2Proof/Machine/Tick.lean ====
section
/-! DEFINITION. One tick (40_tick_cycle.md R80 to R86), which `step` is. -/

namespace Sys2Proof.Machine

/-- The end of a tick whose instruction has executed: with no fault raised the timers count (R85);
a tick that raised one ends at once (R84). -/
def State.finishTick (s : State) : State :=
  match s.fault with
  | .none => s.endTick
  | .stackOverflow => s
  | .stackUnderflow => s

/-- What a tick makes of the executed instruction's outcome. -/
def finishOutcome : Host.Outcome State Fault Refusal → Host.Outcome State Fault Refusal
  | .next s => .next s.finishTick
  | .fault r => .fault r
  | .refused r => .refused r

/-- R80: a faulted core does nothing (R86); else fetch (R81), advance `pc` (R82), decode and execute
(R83), then the timers (R85). -/
def tick (s : State) : Host.Outcome State Fault Refusal :=
  match s.fault with
  | .none => finishOutcome (exec s.fetchInstr s.advancePc)
  | .stackOverflow => .next s
  | .stackUnderflow => .next s

end Sys2Proof.Machine
end

