-- ==== Sys2Proof/Machine/Step.lean ====
section
/-! DEFINITION. The step of the machine is one tick (R80). -/

namespace Sys2Proof.Machine

/-- One tick of the core (40_tick_cycle.md R80). Its result to the host is `fault` after it (R162). -/
def step (s : State) : Host.Outcome State Fault Refusal := tick s

/-- The state with the opcode-table word `w` stored, high byte first, where `step` fetches its next
instruction, and no fault latched (log entry 4). -/
def State.withFetchWord (s : State) (nbits w : Nat) : State := s.placeWord (tableWord nbits w)

end Sys2Proof.Machine
end

