-- ==== Sys2Proof/Machine/Transactions.lean ====
section
/-! DEFINITION. The host interface (60_exceptions.md R159 to R166): five atomic transactions, which
form one total order with the ticks (R160). -/

namespace Sys2Proof.Machine

/-- What a host can do to the core (R161 to R164). Reads (R165) are the fields of `State` and the
accessors of Machine/Ops.lean, and change nothing. -/
inductive Transaction where
  /-- `reset()`, R161. -/
  | reset
  /-- `tick(rnd)`, R162. -/
  | tick (rnd : Byte)
  /-- `load(bytes)`, R163. -/
  | load (bytes : List Byte)
  /-- `set_key(k, v)`, R164. -/
  | setKey (k : Nibble) (b : Byte)
  deriving DecidableEq, Repr

/-- What a transaction answers the host. -/
inductive Result where
  /-- `reset`, `set_key` and an accepted `load`. -/
  | done
  /-- `tick`: the latch after it (R162). -/
  | ticked (latch : FaultLatch)
  /-- A `load` of more than 3584 bytes, which changes nothing (R163, log entry 18). -/
  | loadTooLarge
  deriving DecidableEq, Repr

/-- `load(bytes)` fits when `0x200 + len(bytes) <= 4096` (R163). -/
def loadFits (bytes : List Byte) : Bool := decide (Config.progBase + bytes.length ≤ Config.memSize)

/-- An accepted `load`: `mem[0x200 + i] <- bytes[i]` and nothing else (R163). -/
def State.loadProgram (s : State) (bytes : List Byte) : State := s.writeBytes Config.progBase bytes

/-- `keypad[k] <- b` (R164). -/
def State.setKey (s : State) (k : Nibble) (b : Byte) : State :=
  { s with keypad := s.keypad.set k.toNat b k.isLt }

/-- The state with `rnd` fixed for the next tick, ahead of what the host fixed before (R162). -/
def State.supplyRnd (s : State) (rnd : Byte) : State := { s with rndIn := rnd :: s.rndIn }

/-- `tick(rnd)` (R162): one step with the given random byte, which is gone afterwards whether or
not an instruction read it. A step without a next state would leave the state as it is; no step of
this model is one (R9). -/
def State.tickWith (s : State) (rnd : Byte) : State :=
  match step (s.supplyRnd rnd) with
  | .next t => { t with rndIn := s.rndIn }
  | .fault _ => s
  | .refused _ => s

/-- One host transaction: the state after it and the answer (R161 to R164). -/
def transact (s : State) : Transaction → State × Result
  | .reset => (State.reset, .done)
  | .tick rnd => (s.tickWith rnd, .ticked (s.tickWith rnd).fault)
  | .load bytes => if loadFits bytes then (s.loadProgram bytes, .done) else (s, .loadTooLarge)
  | .setKey k b => (s.setKey k b, .done)

/-- A run: a finite sequence of transactions, one after another (R160, R172). -/
def State.runHost (s : State) : List Transaction → State
  | [] => s
  | t :: rest => (transact s t).1.runHost rest

end Sys2Proof.Machine
end

