-- ==== Sys2Proof/Safety.lean ====
section
/-! DEFINITION. The terms claims about the core are stated in: what a step leaves unchanged, the
invariant of 10_state.md R32 with 60_exceptions.md R152, a finished program (R172), and the tables
of the spec that cover all instructions at once. -/

namespace Sys2Proof.Safety

open Sys2Proof.Machine

/-! ### What is left unchanged -/

/-- No `V` register and no byte is named. -/
def nothing {α : Type} : α → Prop := fun _ => False

/-- Every `V` register but the named ones holds what it held; `VF` is `V[15]` (R12). -/
def SameRegs (written : Nibble → Prop) (s t : State) : Prop :=
  ∀ j, ¬ written j → t.getV j = s.getV j

/-- Every byte of memory but those at the named addresses reads as it read. -/
def SameBytes (written : Nat → Prop) (s t : State) : Prop :=
  ∀ a, a < 4096 → ¬ written a → t.readByte a = s.readByte a

/-- Every cell of the framebuffer holds what it held. -/
def SamePixels (s t : State) : Prop := ∀ k, t.pixel k = s.pixel k

/-- The call stack and its pointer are as they were. -/
def SameStack (s t : State) : Prop := t.stack = s.stack ∧ t.sp = s.sp

/-- Both timers are as they were. -/
def SameTimers (s t : State) : Prop := t.dt = s.dt ∧ t.st = s.st

/-- The keypad and the fault latch are as they were. -/
def SameKeysAndFault (s t : State) : Prop := t.keypad = s.keypad ∧ t.fault = s.fault

/-- The model's own two fields for the input `rnd` are as they were (log entry 1). -/
def SameRnd (s t : State) : Prop := t.rndIn = s.rndIn ∧ t.draws = s.draws

/-- Nothing outside the `V` registers changed, but perhaps the model's fields for `rnd`. -/
def SameButRegsAndRnd (s t : State) : Prop :=
  SameBytes nothing s t ∧ t.i = s.i ∧ t.pc = s.pc ∧ SameStack s t ∧ SamePixels s t ∧
    SameTimers s t ∧ SameKeysAndFault s t

/-- Nothing changed but the named `V` registers. -/
def OnlyRegs (written : Nibble → Prop) (s t : State) : Prop :=
  SameRegs written s t ∧ SameButRegsAndRnd s t ∧ SameRnd s t

/-- Nothing changed but `pc`. -/
def OnlyPc (s t : State) : Prop :=
  SameRegs nothing s t ∧ SameBytes nothing s t ∧ t.i = s.i ∧ SameStack s t ∧ SamePixels s t ∧
    SameTimers s t ∧ SameKeysAndFault s t ∧ SameRnd s t

/-- Nothing changed but `pc`, `sp` and `stack`. -/
def OnlyPcAndStack (s t : State) : Prop :=
  SameRegs nothing s t ∧ SameBytes nothing s t ∧ t.i = s.i ∧ SamePixels s t ∧ SameTimers s t ∧
    SameKeysAndFault s t ∧ SameRnd s t

/-- Nothing changed but `I`. -/
def OnlyIndex (s t : State) : Prop :=
  SameRegs nothing s t ∧ SameBytes nothing s t ∧ t.pc = s.pc ∧ SameStack s t ∧ SamePixels s t ∧
    SameTimers s t ∧ SameKeysAndFault s t ∧ SameRnd s t

/-- Nothing changed but the bytes at the named addresses. -/
def OnlyBytes (written : Nat → Prop) (s t : State) : Prop :=
  SameRegs nothing s t ∧ SameBytes written s t ∧ t.i = s.i ∧ t.pc = s.pc ∧ SameStack s t ∧
    SamePixels s t ∧ SameTimers s t ∧ SameKeysAndFault s t ∧ SameRnd s t

/-- Nothing changed but the framebuffer and the named `V` registers. -/
def OnlyScreenAndRegs (written : Nibble → Prop) (s t : State) : Prop :=
  SameRegs written s t ∧ SameBytes nothing s t ∧ t.i = s.i ∧ t.pc = s.pc ∧ SameStack s t ∧
    SameTimers s t ∧ SameKeysAndFault s t ∧ SameRnd s t

/-- Nothing changed but the timers. -/
def OnlyTimers (s t : State) : Prop :=
  SameRegs nothing s t ∧ SameBytes nothing s t ∧ t.i = s.i ∧ t.pc = s.pc ∧ SameStack s t ∧
    SamePixels s t ∧ SameKeysAndFault s t ∧ SameRnd s t

/-! ### The invariant -/

/-- A latched fault names the instruction at `pc` and the stack that raised it: faults are precise
(60_exceptions.md R150, R152). -/
def FaultExplained (s : State) : Prop :=
  (s.fault = .stackOverflow → s.sp.val = 16 ∧ ∃ nnn, s.fetchInstr = .call nnn) ∧
    (s.fault = .stackUnderflow → s.sp.val = 0 ∧ s.fetchInstr = .ret)

/-- What every tick keeps: memory in its canonical form, and a fault that is explained. The other
invariants of R32 hold by the types of `State`. -/
def Inv (s : State) : Prop := s.mem.wf ∧ FaultExplained s

/-- The core runs: no fault is latched (R86). A safe run is one whose every state runs. -/
def Running (s : State) : Prop := s.fault = .none

/-- The program has come to a `Jump` to its own address (R172, convention (a)). -/
def AtSelfJump (s : State) : Prop := ∃ nnn, s.fetchInstr = .jump nnn ∧ nnn.setWidth 16 = s.pc

/-- The state after `k` ticks that each executed `Sys(0)` (30_encoding.md R67): `pc` is `2 * k` on,
mod 65536, each timer has counted down `k` times (40_tick_cycle.md R85), and the ticks' `rnd` bytes
are gone (log entry 1). -/
def afterSysRun (k : Nat) (s : State) : State :=
  { s with pc := s.pc + BitVec.ofNat 16 (2 * k),
           dt := BitVec.ofNat 8 (s.dt.toNat - k), st := BitVec.ofNat 8 (s.st.toNat - k),
           rndIn := s.rndIn.drop k }

/-! ### Outcomes -/

/-- An outcome with its next state, if it has one, looked at through `f`. -/
def mapNext (f : State → State) :
    Host.Outcome State Fault Refusal → Host.Outcome State Fault Refusal
  | .next t => .next (f t)
  | .fault r => .fault r
  | .refused r => .refused r

/-- The state with the keypad left out of sight. -/
def forgetKeys (s : State) : State := { s with keypad := State.reset.keypad }

/-- The state with the model's fields for `rnd` left out of sight. -/
def forgetRnd (s : State) : State := { s with rndIn := [], draws := 0 }

/-! ### Tables of the spec over all instructions -/

/-- A key is pressed (R142). -/
def SomeKeyPressed (s : State) : Prop := ∃ k, k < 16 ∧ s.pressed k = true

/-- `pc` after one non-faulting tick, by instruction: the summary table of 41_control_flow.md, from
the state before the tick. -/
def pcAfter (i : Instr) (s : State) (p : Word) : Prop :=
  match i with
  | .jump nnn => p = nnn.setWidth 16
  | .call nnn => p = nnn.setWidth 16
  | .ret => ∃ h : s.sp.val - 1 < 16, p = s.stack[s.sp.val - 1]
  | .jumpV0 nnn => p.toNat = nnn.toNat + (s.getV 0#4).toNat
  | .skipEqByte x kk => p = s.pc + (if s.getV x = kk then 4#16 else 2#16)
  | .skipNeByte x kk => p = s.pc + (if s.getV x ≠ kk then 4#16 else 2#16)
  | .skipEqReg x y => p = s.pc + (if s.getV x = s.getV y then 4#16 else 2#16)
  | .skipNeReg x y => p = s.pc + (if s.getV x ≠ s.getV y then 4#16 else 2#16)
  | .skipIfKey x => p = s.pc + (if s.pressed ((s.getV x).toNat % 16) then 4#16 else 2#16)
  | .skipIfNotKey x => p = s.pc + (if s.pressed ((s.getV x).toNat % 16) then 2#16 else 4#16)
  | .waitKey _ => (SomeKeyPressed s → p = s.pc + 2#16) ∧ (¬ SomeKeyPressed s → p = s.pc)
  | .cls | .sys _ | .loadByte _ _ | .addByte _ _ | .loadI _ | .rand _ _ | .draw _ _ _ =>
    p = s.pc + 2#16
  | .loadReg _ _ | .orReg _ _ | .andReg _ _ | .xorReg _ _ | .addReg _ _ | .subReg _ _ =>
    p = s.pc + 2#16
  | .shrReg _ _ | .subnReg _ _ | .shlReg _ _ | .loadDT _ | .setDT _ | .setST _ | .addI _ =>
    p = s.pc + 2#16
  | .loadSprite _ | .bcd _ | .dumpRegs _ | .loadRegs _ | .noOp => p = s.pc + 2#16

/-- The `V` registers an instruction may write (10_state.md R13): `V[x]`, `VF` as flag, and for
`LoadRegs(x)` all of `V[0..x]`. -/
def mayWriteReg (i : Instr) (j : Nibble) : Prop :=
  match i with
  | .loadByte x _ | .addByte x _ | .rand x _ => j = x
  | .loadReg x _ | .orReg x _ | .andReg x _ | .xorReg x _ => j = x
  | .addReg x _ | .subReg x _ | .shrReg x _ | .subnReg x _ | .shlReg x _ => j = x ∨ j = 15#4
  | .draw _ _ _ => j = 15#4
  | .loadDT x | .waitKey x => j = x
  | .loadRegs x => j.toNat ≤ x.toNat
  | .cls | .ret | .sys _ | .jump _ | .call _ | .loadI _ | .jumpV0 _ | .noOp => False
  | .skipEqByte _ _ | .skipNeByte _ _ | .skipEqReg _ _ | .skipNeReg _ _ => False
  | .skipIfKey _ | .skipIfNotKey _ | .setDT _ | .setST _ | .addI _ | .loadSprite _ => False
  | .bcd _ | .dumpRegs _ => False

/-- `Bcd` and `DumpRegs`, the instructions that write `mem` (R10). -/
def writesMemory : Instr → Prop
  | .bcd _ => True
  | .dumpRegs _ => True
  | _ => False

/-- `LoadI`, `AddI` and `LoadSprite`, the instructions that write `I` (R10). -/
def writesIndex : Instr → Prop
  | .loadI _ => True
  | .addI _ => True
  | .loadSprite _ => True
  | _ => False

/-- `Call` and `Ret`, the instructions that write `sp` and can raise a fault (R10, R150). -/
def movesStack : Instr → Prop
  | .call _ => True
  | .ret => True
  | _ => False

/-- `Cls` and `Draw`, the instructions that write `gfx` (R10, R23). -/
def writesScreen : Instr → Prop
  | .cls => True
  | .draw _ _ _ => True
  | _ => False

/-- The instructions that read the keypad (R10, R88). -/
def readsKeys : Instr → Prop
  | .skipIfKey _ => True
  | .skipIfNotKey _ => True
  | .waitKey _ => True
  | _ => False

/-- `S(px, py)` of 44_display.md R133: the sprite of `n` rows at `I`, drawn at `(vx, vy)`, covers
the pixel with a 1 bit. -/
def Covers (s : State) (vx vy n px py : Nat) : Prop :=
  ∃ row bit, row < n ∧ bit < 8 ∧ (vx + bit) % 64 = px ∧ (vy + row) % 32 = py ∧
    (s.readByte (s.i.toNat + row)).getLsbD (7 - bit) = true

end Sys2Proof.Safety
end

