-- ==== Sys2Proof/Certificates/Slice0/Obligations.lean ====
section
/-! DEFINITION. The statements about the CHIP-8 core, for the provers. Each docstring names the rules
of spec/ it formalises. A statement that rests on a decision of the spec itself (92_eei_decisions.md
D<n>), on what the spec marks as derived, or on an assumption log entry says so. -/

open Sys2Proof Sys2Proof.Machine Sys2Proof.Safety

/-! ### Decoding and encoding -/

/-- Words of 95_test_vectors.md S2 to S7 and V2, one or more for each family. The opcode numbers
other than those of S2 to S7 are the spec's own supply (93_implementation_defined.md G1, log entry 5). -/
def Obligations.SpecWordsDecodeAsListed : Prop :=
  decodeWord 0x00E0#16 = .cls ∧ decodeWord 0x00EE#16 = .ret ∧ decodeWord 0x00E1#16 = .sys 0x0E1#12 ∧
  decodeWord 0x1ABC#16 = .jump 0xABC#12 ∧ decodeWord 0x2ABC#16 = .call 0xABC#12 ∧
  decodeWord 0x6A07#16 = .loadByte 0xA#4 0x07#8 ∧ decodeWord 0x8014#16 = .addReg 0#4 1#4 ∧
  decodeWord 0xD123#16 = .draw 1#4 2#4 3#4 ∧ decodeWord 0x8ABE#16 = .shlReg 10#4 11#4 ∧
  decodeWord 0xE1A1#16 = .skipIfNotKey 1#4 ∧ decodeWord 0xF133#16 = .bcd 1#4 ∧
  decodeWord 0xF175#16 = .noOp ∧ decodeWord 0xE19F#16 = .noOp ∧ decodeWord 0x8AB8#16 = .noOp

/-- 30_encoding.md R72 (which the spec marks as derived): decoding undoes encoding for every
well-formed instruction, also from its two bytes in memory order with anything after them; encoding
undoes decoding for every word that is not `NoOp`; and whatever is decoded is well formed. -/
def Obligations.DecodeEncodeRoundTrip : Prop :=
  (∀ i : Instr, i.WellFormed →
    decodeWord (encode i) = i ∧
      ∀ rest, decodeBytes (bytesOfWord (encode i) ++ rest) = .ok (i, rest)) ∧
  (∀ w : Word, decodeWord w ≠ .noOp → encode (decodeWord w) = w) ∧
  ∀ w : Word, (decodeWord w).WellFormed

/-- 30_encoding.md R63 to R65: the decoder is the opcode map read top to bottom by mask and value,
and no two of its 35 rows match one word but `Cls` and `Ret` against `Sys` (rows 0, 1 against row 2). -/
def Obligations.DecoderIsOpcodeTableWalk : Prop :=
  (∀ op : Word, decodeWord op = walkTable op) ∧
  ∀ (a b : Nat) (ra rb : TableRow) (op : Word), a < b → opcodeTable[a]? = some ra →
    opcodeTable[b]? = some rb → ra.matches op = true → rb.matches op = true → a < 2 ∧ b = 2

/-- 30_encoding.md R66 (derived by the spec from R64): exactly these words decode to `NoOp`. -/
def Obligations.NoOpSpaceIsExact : Prop :=
  ∀ op : Word, decodeWord op = .noOp ↔
    (fieldClass op = 0x5#4 ∧ fieldN op ≠ 0#4) ∨
    (fieldClass op = 0x8#4 ∧ fieldN op ∈ [0x8#4, 0x9#4, 0xA#4, 0xB#4, 0xC#4, 0xD#4, 0xF#4]) ∨
    (fieldClass op = 0x9#4 ∧ fieldN op ≠ 0#4) ∨
    (fieldClass op = 0xE#4 ∧ fieldKk op ∉ [0x9E#8, 0xA1#8]) ∨
    (fieldClass op = 0xF#4 ∧
      fieldKk op ∉ [0x07#8, 0x0A#8, 0x15#8, 0x18#8, 0x1E#8, 0x29#8, 0x33#8, 0x55#8, 0x65#8])

/-! ### The tick -/

/-- 20_memory.md R43, 40_tick_cycle.md R81 (decisions D1, D2; log entries 6 and 7): the byte at `pc`
is the high one, the byte at `pc + 1` the low one, each address reduced mod 4096. -/
def Obligations.FetchIsBigEndianMasked : Prop :=
  ∀ s : State, s.fetchWord.toNat =
    256 * (s.mem.lookup (s.pc.toNat % 4096)).toNat + (s.mem.lookup ((s.pc.toNat + 1) % 4096)).toNat

/-- 40_tick_cycle.md R80 to R86: a running core whose two bytes at `pc` decode to `i` executes `i`
with `pc` advanced by 2; unless that raised a fault, both timers then count down and the `rnd` byte
of the tick is gone (log entry 1). A faulted core does nothing. -/
def Obligations.StepRunsTheDecodedInstruction : Prop :=
  (∀ (s : State) (i : Instr), s.fault = .none →
    decodeBytes [s.readByte s.pc.toNat, s.readByte (s.pc.toNat + 1)] = .ok (i, []) → i.WellFormed →
    step s = match exec i { s with pc := s.pc + 2#16 } with
      | .next t => .next (if t.fault = .none then
          { t with dt := if t.dt = 0#8 then 0#8 else t.dt - 1#8,
                   st := if t.st = 0#8 then 0#8 else t.st - 1#8, rndIn := t.rndIn.tail } else t)
      | .fault r => .fault r
      | .refused r => .refused r) ∧
  ∀ s : State, s.fault ≠ .none → step s = .next s

/-- 00_scope.md R9 (its stack faults are the spec's decision, 90_conflicts.md C2): every instruction
and every tick gives a next state; only `Call` and `Ret` can leave a fault that was not there. -/
def Obligations.EveryInstructionGivesANextState : Prop :=
  (∀ (i : Instr) (s : State), ∃ t, exec i s = .next t ∧ (t.fault ≠ s.fault → movesStack i)) ∧
  ∀ s : State, ∃ t, step s = .next t

/-- 40_tick_cycle.md R85: after an instruction that raised no fault each timer loses 1 unless it is
0, from the value the instruction left, and the tick changes nothing else of what it left (but the
model's `rndIn`, log entry 1). -/
def Obligations.TimersDecrementAfterExecute : Prop :=
  ∀ s u : State, s.fault = .none → exec s.fetchInstr s.advancePc = .next u → u.fault = .none →
    ∃ t, step s = .next t ∧ t.dt.toNat = u.dt.toNat - 1 ∧ t.st.toNat = u.st.toNat - 1 ∧
      t = { u with dt := t.dt, st := t.st, rndIn := t.rndIn }

/-- The summary table at the end of 41_control_flow.md (derived by the spec from R82, R90 to R99,
R140 to R142): `pc` at the end of a tick that ends without a fault, for every instruction. -/
def Obligations.PcAfterEveryTick : Prop :=
  ∀ s t : State, s.fault = .none → step s = .next t → t.fault = .none →
    pcAfter s.fetchInstr s t.pc

/-! ### Faults -/

/-- 60_exceptions.md R152, 40_tick_cycle.md R84 (decision D5, log entry 8): a tick that raises a
stack fault leaves the state as it was before the tick, but for the latch. -/
def Obligations.StackFaultUndoesTheTick : Prop :=
  ∀ s : State, s.fault = .none →
    (∀ nnn, s.fetchInstr = .call nnn → s.sp.val = 16 →
      step s = .next { s with fault := .stackOverflow }) ∧
    (s.fetchInstr = .ret → s.sp.val = 0 → step s = .next { s with fault := .stackUnderflow })

/-- 60_exceptions.md R150 (decision D4, log entry 8): a tick of a running core latches a fault only
where `Call` finds the stack full or `Ret` finds it empty. -/
def Obligations.OnlyStackLimitsLatchAFault : Prop :=
  ∀ s t : State, s.fault = .none → step s = .next t →
    (t.fault = .stackOverflow → (∃ nnn, s.fetchInstr = .call nnn) ∧ s.sp.val = 16) ∧
    (t.fault = .stackUnderflow → s.fetchInstr = .ret ∧ s.sp.val = 0)

/-- 60_exceptions.md R153, 40_tick_cycle.md R86 (decision D5): while a fault is latched any number of
ticks changes nothing, `tick`, `load` and `set_key` leave the latch, and `reset` clears it. -/
def Obligations.FaultLatchHoldsUntilReset : Prop :=
  ∀ s : State, s.fault ≠ .none →
    (∀ k, Host.Core.run core k s = .next s) ∧
    (∀ rnd, transact s (.tick rnd) = (s, .ticked s.fault)) ∧
    (∀ bytes, (transact s (.load bytes)).1.fault = s.fault) ∧
    (∀ k b, (transact s (.setKey k b)).1.fault = s.fault) ∧
    (transact s .reset).1.fault = .none

/-- What every tick keeps, from any state that has it (10_state.md R32, 60_exceptions.md R150 and
R152; the canonical form is the model's, log entry 20): memory in canonical form, and a latched fault
explained by the stack and by the instruction that `pc` still names. -/
def Obligations.EveryStepKeepsTheInvariant : Prop :=
  ∀ s t : State, Inv s → step s = .next t → Inv t

/-- The state after reset has that invariant. -/
def Obligations.ResetHasTheInvariant : Prop := Inv State.reset

/-! ### Whole-machine rules -/

/-- 10_state.md R10, R13 and R23 (read as closed lists by decision D14): no instruction writes any
state but what the tables give it. -/
def Obligations.OnlyNamedInstructionsWrite : Prop :=
  ∀ (i : Instr) (s t : State), exec i s = .next t →
    SameRegs (mayWriteReg i) s t ∧
    (¬ writesMemory i → SameBytes nothing s t) ∧ (¬ writesIndex i → t.i = s.i) ∧
    (¬ movesStack i → SameStack s t ∧ t.fault = s.fault) ∧ (i = .ret → t.stack = s.stack) ∧
    (¬ writesScreen i → SamePixels s t) ∧ ((∀ x, i ≠ .setDT x) → t.dt = s.dt) ∧
    ((∀ x, i ≠ .setST x) → t.st = s.st) ∧ t.keypad = s.keypad

/-- 40_tick_cycle.md R88 (decisions D9, D10): a tick whose instruction reads no key gives the same
result whatever the keypad holds, and one that is not `Rand` whatever `rnd` is. -/
def Obligations.KeypadAndRndReachNoOtherInstruction : Prop :=
  (∀ (s : State) (keys : Vector Byte 16), ¬ readsKeys s.fetchInstr →
    mapNext forgetKeys (step { s with keypad := keys }) = mapNext forgetKeys (step s)) ∧
  ∀ (s : State) (bytes : List Byte) (n : Nat), (∀ x kk, s.fetchInstr ≠ .rand x kk) →
    mapNext forgetRnd (step { s with rndIn := bytes, draws := n }) = mapNext forgetRnd (step s)

/-- 60_exceptions.md R172 (a) (decision D22) with 40_tick_cycle.md R85: at a `Jump` to its own
address any number of ticks changes nothing but the timers, which run down to 0 (and the model's
`rndIn`, log entry 1). -/
def Obligations.SelfJumpRunsOnlyTheTimers : Prop :=
  ∀ (s : State) (k : Nat), s.fault = .none → AtSelfJump s →
    Host.Core.run core k s = .next { s with
      dt := BitVec.ofNat 8 (s.dt.toNat - k), st := BitVec.ofNat 8 (s.st.toNat - k),
      rndIn := s.rndIn.drop k }

/-- 45_keypad_timers.md R142 over ticks (with R85): while no key is down a `WaitKey` holds: any
number of ticks changes nothing but the timers (and the model's `rndIn`, log entry 1). -/
def Obligations.WaitKeyHoldsWhileNoKeyIsDown : Prop :=
  ∀ (s : State) (x : Nibble) (k : Nat), s.fault = .none → s.fetchInstr = .waitKey x →
    (∀ j, j < 16 → s.pressed j = false) →
    Host.Core.run core k s = .next { s with
      dt := BitVec.ofNat 8 (s.dt.toNat - k), st := BitVec.ofNat 8 (s.st.toNat - k),
      rndIn := s.rndIn.drop k }

/-! ### Control flow -/

/-- 41_control_flow.md R90: `0nnn` but for `00E0` and `00EE` is `Sys`, and `Sys` has no effect. -/
def Obligations.SysHasNoEffect : Prop :=
  ∀ nnn : Addr12,
    (nnn ≠ 0x0E0#12 → nnn ≠ 0x0EE#12 → decodeWord (wordNnn 0x0#4 nnn) = .sys nnn) ∧
    ∀ s, exec (.sys nnn) s = .next s

/-- 41_control_flow.md R91: a word that no row of the opcode map matches is `NoOp`, and `NoOp` has no
effect. -/
def Obligations.NoOpHasNoEffect : Prop :=
  (∀ op : Word, (∀ row ∈ opcodeTable, op &&& row.mask ≠ row.value) → decodeWord op = .noOp) ∧
  ∀ s, exec .noOp s = .next s

/-- 41_control_flow.md R92. -/
def Obligations.JumpSetsPc : Prop :=
  ∀ nnn : Addr12, decodeWord (wordNnn 0x1#4 nnn) = .jump nnn ∧
    ∀ s, ∃ t, exec (.jump nnn) s = .next t ∧ t.pc.toNat = nnn.toNat ∧ OnlyPc s t

/-- 41_control_flow.md R93 (the fault is the spec's decision D4, log entry 8): below depth 16 `Call`
pushes the whole advanced `pc` and jumps; at depth 16 it takes `StackOverflow`, which leaves `pc` at
the instruction and changes nothing else but the latch. -/
def Obligations.CallPushesOrOverflows : Prop :=
  ∀ nnn : Addr12, decodeWord (wordNnn 0x2#4 nnn) = .call nnn ∧
    (∀ (s : State) (h : s.sp.val < 16), ∃ t, exec (.call nnn) s = .next t ∧
      t.pc.toNat = nnn.toNat ∧ t.sp.val = s.sp.val + 1 ∧ t.stack[s.sp.val] = s.pc ∧
      (∀ (j : Nat) (hj : j < 16), j ≠ s.sp.val → t.stack[j] = s.stack[j]) ∧ OnlyPcAndStack s t) ∧
    ∀ s : State, s.sp.val = 16 →
      exec (.call nnn) s = .next { s with pc := s.pc - 2#16, fault := .stackOverflow }

/-- 41_control_flow.md R94 (popping by `sp` is decision D6, the fault D4, log entry 8): above depth 0
`Ret` jumps to the top entry and leaves the entries as they are; at depth 0 it takes
`StackUnderflow`, which leaves `pc` at the instruction and changes nothing else but the latch. -/
def Obligations.RetPopsOrUnderflows : Prop :=
  decodeWord 0x00EE#16 = .ret ∧
    (∀ (s : State) (h : s.sp.val - 1 < 16), 0 < s.sp.val → ∃ t, exec .ret s = .next t ∧
      t.pc = s.stack[s.sp.val - 1] ∧ t.sp.val = s.sp.val - 1 ∧ t.stack = s.stack ∧
      OnlyPcAndStack s t) ∧
    ∀ s : State, s.sp.val = 0 →
      exec .ret s = .next { s with pc := s.pc - 2#16, fault := .stackUnderflow }

/-- 41_control_flow.md, derived from R93 and R94: a `Ret` executed with the stack that a `Call` left
goes back to the instruction after the call. -/
def Obligations.RetReturnsBehindTheCall : Prop :=
  ∀ (nnn : Addr12) (s t u : State), s.sp.val < 16 → exec (.call nnn) s = .next t →
    u.stack = t.stack → u.sp = t.sp →
    ∃ w, exec .ret u = .next w ∧ w.pc = s.pc ∧ w.sp = s.sp

/-- 41_control_flow.md R95 (widths by decisions D2, D3): `nnn + V0`, which never wraps. -/
def Obligations.JumpV0AddsV0 : Prop :=
  ∀ nnn : Addr12, decodeWord (wordNnn 0xB#4 nnn) = .jumpV0 nnn ∧
    ∀ s, ∃ t, exec (.jumpV0 nnn) s = .next t ∧
      t.pc.toNat = nnn.toNat + (s.getV 0#4).toNat ∧ OnlyPc s t

/-- 41_control_flow.md R96 and R97. -/
def Obligations.ByteSkipsCompareTheRegister : Prop :=
  ∀ (x : Nibble) (kk : Byte),
    decodeWord (wordXkk 0x3#4 x kk) = .skipEqByte x kk ∧
    decodeWord (wordXkk 0x4#4 x kk) = .skipNeByte x kk ∧
    ∀ s,
      (∃ t, exec (.skipEqByte x kk) s = .next t ∧ OnlyPc s t ∧
        t.pc.toNat = (s.pc.toNat + if s.getV x = kk then 2 else 0) % 65536) ∧
      (∃ t, exec (.skipNeByte x kk) s = .next t ∧ OnlyPc s t ∧
        t.pc.toNat = (s.pc.toNat + if s.getV x = kk then 0 else 2) % 65536)

/-- 41_control_flow.md R98 and R99, with the `5xyN`, `9xyN` of nonzero `N` that are `NoOp`. -/
def Obligations.RegisterSkipsCompareTwoRegisters : Prop :=
  ∀ (x y : Nibble),
    decodeWord (wordXyn 0x5#4 x y 0#4) = .skipEqReg x y ∧
    decodeWord (wordXyn 0x9#4 x y 0#4) = .skipNeReg x y ∧
    (∀ n, n ≠ 0#4 → decodeWord (wordXyn 0x5#4 x y n) = .noOp ∧
      decodeWord (wordXyn 0x9#4 x y n) = .noOp) ∧
    ∀ s,
      (∃ t, exec (.skipEqReg x y) s = .next t ∧ OnlyPc s t ∧
        t.pc.toNat = (s.pc.toNat + if s.getV x = s.getV y then 2 else 0) % 65536) ∧
      (∃ t, exec (.skipNeReg x y) s = .next t ∧ OnlyPc s t ∧
        t.pc.toNat = (s.pc.toNat + if s.getV x = s.getV y then 0 else 2) % 65536)

/-! ### ALU and register file -/

/-- 42_alu.md R100. -/
def Obligations.LoadByteSetsTheRegister : Prop :=
  ∀ (x : Nibble) (kk : Byte), decodeWord (wordXkk 0x6#4 x kk) = .loadByte x kk ∧
    ∀ s, ∃ t, exec (.loadByte x kk) s = .next t ∧ t.getV x = kk ∧ OnlyRegs (· = x) s t

/-- 42_alu.md R101: the sum mod 256, and no flag. -/
def Obligations.AddByteWrapsWithoutFlag : Prop :=
  ∀ (x : Nibble) (kk : Byte), decodeWord (wordXkk 0x7#4 x kk) = .addByte x kk ∧
    ∀ s, ∃ t, exec (.addByte x kk) s = .next t ∧
      (t.getV x).toNat = ((s.getV x).toNat + kk.toNat) % 256 ∧ OnlyRegs (· = x) s t

/-- 42_alu.md R102. -/
def Obligations.LoadRegCopies : Prop :=
  ∀ (x y : Nibble), decodeWord (wordXyn 0x8#4 x y 0x0#4) = .loadReg x y ∧
    ∀ s, ∃ t, exec (.loadReg x y) s = .next t ∧ t.getV x = s.getV y ∧ OnlyRegs (· = x) s t

/-- 42_alu.md R103, R104, R105: bit by bit, and `VF` is left alone unless it is the destination. -/
def Obligations.BitwiseCombineWithoutFlag : Prop :=
  ∀ (x y : Nibble),
    decodeWord (wordXyn 0x8#4 x y 0x1#4) = .orReg x y ∧
    decodeWord (wordXyn 0x8#4 x y 0x2#4) = .andReg x y ∧
    decodeWord (wordXyn 0x8#4 x y 0x3#4) = .xorReg x y ∧
    ∀ s,
      (∃ t, exec (.orReg x y) s = .next t ∧ OnlyRegs (· = x) s t ∧
        ∀ b, (t.getV x).getLsbD b = ((s.getV x).getLsbD b || (s.getV y).getLsbD b)) ∧
      (∃ t, exec (.andReg x y) s = .next t ∧ OnlyRegs (· = x) s t ∧
        ∀ b, (t.getV x).getLsbD b = ((s.getV x).getLsbD b && (s.getV y).getLsbD b)) ∧
      (∃ t, exec (.xorReg x y) s = .next t ∧ OnlyRegs (· = x) s t ∧
        ∀ b, (t.getV x).getLsbD b = ((s.getV x).getLsbD b ^^ (s.getV y).getLsbD b))

/-- 42_alu.md R106 and R112 (operands latched, result over flag: decision D7, log entry 9): the sum
mod 256, and in `VF`, unless it is the destination, the carry of the mathematical sum. -/
def Obligations.AddRegSumAndCarry : Prop :=
  ∀ (x y : Nibble), decodeWord (wordXyn 0x8#4 x y 0x4#4) = .addReg x y ∧
    ∀ s, ∃ t, exec (.addReg x y) s = .next t ∧
      (t.getV x).toNat = ((s.getV x).toNat + (s.getV y).toNat) % 256 ∧
      (x ≠ 15#4 → (t.getV 15#4).toNat =
        if (s.getV x).toNat + (s.getV y).toNat > 255 then 1 else 0) ∧
      OnlyRegs (fun j => j = x ∨ j = 15#4) s t

/-- 42_alu.md R107, R109 and R113 (aliasing by decision D7, log entry 9; the strict comparison by
90_conflicts.md C5, log entry 15): the difference mod 256 in each direction, and in `VF`, unless it
is the destination, 1 exactly when the minuend is the greater. -/
def Obligations.SubtractionsAndStrictNoBorrow : Prop :=
  ∀ (x y : Nibble),
    decodeWord (wordXyn 0x8#4 x y 0x5#4) = .subReg x y ∧
    decodeWord (wordXyn 0x8#4 x y 0x7#4) = .subnReg x y ∧
    ∀ s,
      (∃ t, exec (.subReg x y) s = .next t ∧
        ((t.getV x).toNat : Int) = ((s.getV x).toNat - (s.getV y).toNat : Int) % 256 ∧
        (x ≠ 15#4 → (t.getV 15#4).toNat =
          if (s.getV x).toNat > (s.getV y).toNat then 1 else 0) ∧
        OnlyRegs (fun j => j = x ∨ j = 15#4) s t) ∧
      (∃ t, exec (.subnReg x y) s = .next t ∧
        ((t.getV x).toNat : Int) = ((s.getV y).toNat - (s.getV x).toNat : Int) % 256 ∧
        (x ≠ 15#4 → (t.getV 15#4).toNat =
          if (s.getV y).toNat > (s.getV x).toNat then 1 else 0) ∧
        OnlyRegs (fun j => j = x ∨ j = 15#4) s t)

/-- 42_alu.md R108 and R110, 30_encoding.md R68 (aliasing by decision D7, log entry 9): `V[x]` is
shifted by one in place whatever `y` is, and `VF`, unless it is the destination, holds the bit moved
out. -/
def Obligations.ShiftsByOneInPlace : Prop :=
  ∀ (x y : Nibble),
    decodeWord (wordXyn 0x8#4 x y 0x6#4) = .shrReg x y ∧
    decodeWord (wordXyn 0x8#4 x y 0xE#4) = .shlReg x y ∧
    ∀ s,
      (∃ t, exec (.shrReg x y) s = .next t ∧ (t.getV x).toNat = (s.getV x).toNat / 2 ∧
        (x ≠ 15#4 → (t.getV 15#4).toNat = (s.getV x).toNat % 2) ∧
        OnlyRegs (fun j => j = x ∨ j = 15#4) s t) ∧
      (∃ t, exec (.shlReg x y) s = .next t ∧ (t.getV x).toNat = 2 * (s.getV x).toNat % 256 ∧
        (x ≠ 15#4 → (t.getV 15#4).toNat = (s.getV x).toNat / 128) ∧
        OnlyRegs (fun j => j = x ∨ j = 15#4) s t)

/-- 42_alu.md R111, 10_state.md R28 (decision D10, log entry 1): `rnd AND kk`, with the byte the host
fixed for the tick where it fixed one, and with a free one where it did not; the statement holds for
every value of the free byte. -/
def Obligations.RandMasksTheTicksByte : Prop :=
  ∀ (x : Nibble) (kk : Byte), decodeWord (wordXkk 0xC#4 x kk) = .rand x kk ∧
    (∀ (s : State) (rnd : Byte) (later : List Byte), s.rndIn = rnd :: later →
      ∃ t, exec (.rand x kk) s = .next t ∧ t.getV x = rnd &&& kk ∧ OnlyRegs (· = x) s t) ∧
    ∀ s : State, s.rndIn = [] →
      ∃ t, exec (.rand x kk) s = .next t ∧ t.getV x = Config.rnd s.draws &&& kk ∧
        SameRegs (· = x) s t ∧ SameButRegsAndRnd s t ∧ t.rndIn = [] ∧ t.draws = s.draws + 1

/-! ### Index register and memory -/

/-- 43_index_memory.md R120. -/
def Obligations.LoadISetsTheIndex : Prop :=
  ∀ nnn : Addr12, decodeWord (wordNnn 0xA#4 nnn) = .loadI nnn ∧
    ∀ s, ∃ t, exec (.loadI nnn) s = .next t ∧ t.i.toNat = nnn.toNat ∧ OnlyIndex s t

/-- 43_index_memory.md R121 (16 bits kept by decision D3): `I + V[x]` mod 65536, and no flag. -/
def Obligations.AddIWrapsWithoutFlag : Prop :=
  ∀ x : Nibble, decodeWord (wordXkk 0xF#4 x 0x1E#8) = .addI x ∧
    ∀ s, ∃ t, exec (.addI x) s = .next t ∧
      t.i.toNat = (s.i.toNat + (s.getV x).toNat) % 65536 ∧ OnlyIndex s t

/-- 43_index_memory.md R122: the whole byte, not its low nibble (log entry 17). -/
def Obligations.LoadSpriteGivesTheGlyphAddress : Prop :=
  ∀ x : Nibble, decodeWord (wordXkk 0xF#4 x 0x29#8) = .loadSprite x ∧
    ∀ s, ∃ t, exec (.loadSprite x) s = .next t ∧
      t.i.toNat = 0x050 + 5 * (s.getV x).toNat ∧ OnlyIndex s t

/-- 43_index_memory.md R123 (addresses masked by decision D2, log entry 7): hundreds, tens and units
of `V[x]` at `I`, `I + 1`, `I + 2`, each address mod 4096, and every other byte as before. -/
def Obligations.BcdStoresThreeDigits : Prop :=
  ∀ x : Nibble, decodeWord (wordXkk 0xF#4 x 0x33#8) = .bcd x ∧
    ∀ s, ∃ t, exec (.bcd x) s = .next t ∧
      (t.readByte (s.i.toNat % 4096)).toNat = (s.getV x).toNat / 100 ∧
      (t.readByte ((s.i.toNat + 1) % 4096)).toNat = (s.getV x).toNat / 10 % 10 ∧
      (t.readByte ((s.i.toNat + 2) % 4096)).toNat = (s.getV x).toNat % 10 ∧
      OnlyBytes (fun a => ∃ k, k < 3 ∧ a = (s.i.toNat + k) % 4096) s t

/-- 43_index_memory.md R124 (decisions D2, D14, log entry 7): `V[k]` at `(I + k)` mod 4096 for every
`k` up to `x`, and every other byte as before. -/
def Obligations.DumpRegsStoresTheRegisters : Prop :=
  ∀ x : Nibble, decodeWord (wordXkk 0xF#4 x 0x55#8) = .dumpRegs x ∧
    ∀ s, ∃ t, exec (.dumpRegs x) s = .next t ∧
      (∀ k : Nibble, k.toNat ≤ x.toNat → t.readByte ((s.i.toNat + k.toNat) % 4096) = s.getV k) ∧
      OnlyBytes (fun a => ∃ k, k ≤ x.toNat ∧ a = (s.i.toNat + k) % 4096) s t

/-- 43_index_memory.md R125 (decisions D2, D14, log entry 7): `V[k]` from `(I + k)` mod 4096 for every
`k` up to `x`, `VF` among them when `x = 15`, and every other register as before. -/
def Obligations.LoadRegsLoadsTheRegisters : Prop :=
  ∀ x : Nibble, decodeWord (wordXkk 0xF#4 x 0x65#8) = .loadRegs x ∧
    ∀ s, ∃ t, exec (.loadRegs x) s = .next t ∧
      (∀ k : Nibble, k.toNat ≤ x.toNat → t.getV k = s.readByte ((s.i.toNat + k.toNat) % 4096)) ∧
      OnlyRegs (fun j => j.toNat ≤ x.toNat) s t

/-- 43_index_memory.md section 5 (derived by the spec from R124, R125): a dump, then anything that
keeps `I` and the dumped bytes, then a load, restores the registers. -/
def Obligations.DumpThenLoadRestores : Prop :=
  ∀ (x : Nibble) (s t u : State), exec (.dumpRegs x) s = .next t → u.i = t.i →
    (∀ k, k ≤ x.toNat → u.readByte (t.i.toNat + k) = t.readByte (t.i.toNat + k)) →
    ∃ w, exec (.loadRegs x) u = .next w ∧
      ∀ k : Nibble, k.toNat ≤ x.toNat → w.getV k = s.getV k

/-- 20_memory.md R52 (derived by the spec, decision D18): where a `DumpRegs` stores over the bytes at
the `pc` it executes with, the next tick's fetch sees them. -/
def Obligations.FetchSeesAnEarlierStore : Prop :=
  ∀ (x : Nibble) (s t : State), 1 ≤ x.toNat → exec (.dumpRegs x) s = .next t →
    s.i.toNat % 4096 = s.pc.toNat % 4096 → t.fetchWord = wordOfBytes (s.getV 0#4) (s.getV 1#4)

/-! ### Display -/

/-- 44_display.md R130. -/
def Obligations.ClsClearsEveryCell : Prop :=
  decodeWord 0x00E0#16 = .cls ∧
    ∀ s, ∃ t, exec .cls s = .next t ∧ (∀ k, k < 2048 → t.pixel k = false) ∧
      OnlyScreenAndRegs nothing s t

/-- 44_display.md R133, the whole-frame form of R131 (derived by the spec; latching and masking by
decisions D7, D2, log entries 7 and 9): every cell is XORed with `S`, `VF` is 1 exactly when a lit
cell was covered, and nothing else changes. -/
def Obligations.DrawXorsTheWholeSprite : Prop :=
  ∀ x y n : Nibble, decodeWord (wordXyn 0xD#4 x y n) = .draw x y n ∧
    ∀ s, ∃ t, exec (.draw x y n) s = .next t ∧
      (∀ px py, px < 64 → py < 32 →
        (Covers s (s.getV x).toNat (s.getV y).toNat n.toNat px py →
          t.pixel (py * 64 + px) = !s.pixel (py * 64 + px)) ∧
        (¬ Covers s (s.getV x).toNat (s.getV y).toNat n.toNat px py →
          t.pixel (py * 64 + px) = s.pixel (py * 64 + px))) ∧
      ((∃ px py, px < 64 ∧ py < 32 ∧ s.pixel (py * 64 + px) = true ∧
        Covers s (s.getV x).toNat (s.getV y).toNat n.toNat px py) → t.getV 15#4 = 1#8) ∧
      ((¬ ∃ px py, px < 64 ∧ py < 32 ∧ s.pixel (py * 64 + px) = true ∧
        Covers s (s.getV x).toNat (s.getV y).toNat n.toNat px py) → t.getV 15#4 = 0#8) ∧
      OnlyScreenAndRegs (· = 15#4) s t

/-- 44_display.md R134 (derived by the spec from R133): the same sprite drawn again at the same
coordinates, from the same bytes, restores the framebuffer; and if the first draw turned a pixel on,
the second sets `VF` (the reading of R134's condition that R131 bears out, DEDUCED, log entry 19). The
second draw may name other registers, since the first may have written
over a coordinate in `VF`. -/
def Obligations.DrawingTwiceRestoresTheScreen : Prop :=
  ∀ (x y x' y' n : Nibble) (s t u : State), exec (.draw x y n) s = .next t →
    u.gfx = t.gfx → u.getV x' = s.getV x → u.getV y' = s.getV y → u.i = s.i →
    (∀ k, k < n.toNat → u.readByte (s.i.toNat + k) = s.readByte (s.i.toNat + k)) →
    ∃ w, exec (.draw x' y' n) u = .next w ∧ (∀ k, w.pixel k = s.pixel k) ∧
      ((∃ k, s.pixel k = false ∧ t.pixel k = true) → w.getV 15#4 = 1#8)

/-! ### Keypad and timers -/

/-- 45_keypad_timers.md R140, R141 and R147 (key index mod 16 by decision D8, log entry 16). -/
def Obligations.KeySkipsTestTheSelectedKey : Prop :=
  ∀ x : Nibble,
    decodeWord (wordXkk 0xE#4 x 0x9E#8) = .skipIfKey x ∧
    decodeWord (wordXkk 0xE#4 x 0xA1#8) = .skipIfNotKey x ∧
    ∀ (s : State) (key : Nat) (h : key < 16), (s.getV x).toNat % 16 = key →
      (∃ t, exec (.skipIfKey x) s = .next t ∧ OnlyPc s t ∧
        t.pc.toNat = (s.pc.toNat + if s.keypad[key] ≠ 0#8 then 2 else 0) % 65536) ∧
      (∃ t, exec (.skipIfNotKey x) s = .next t ∧ OnlyPc s t ∧
        t.pc.toNat = (s.pc.toNat + if s.keypad[key] = 0#8 then 2 else 0) % 65536)

/-- 45_keypad_timers.md R142: the least pressed key into `V[x]`; with no key pressed `pc - 2`. The
tick always completes, and with no key pressed it ends where it began. -/
def Obligations.WaitKeyTakesTheLeastKey : Prop :=
  ∀ x : Nibble, decodeWord (wordXkk 0xF#4 x 0x0A#8) = .waitKey x ∧
    (∀ (s : State) (k : Nat) (h : k < 16), s.keypad[k] ≠ 0#8 →
      (∀ (j : Nat) (hj : j < k), s.keypad[j] = 0#8) →
      ∃ t, exec (.waitKey x) s = .next t ∧ (t.getV x).toNat = k ∧ OnlyRegs (· = x) s t) ∧
    (∀ s : State, (∀ (j : Nat) (hj : j < 16), s.keypad[j] = 0#8) →
      exec (.waitKey x) s = .next { s with pc := s.pc - 2#16 }) ∧
    ∀ s : State, s.fault = .none → s.fetchInstr = .waitKey x →
      ∃ t, step s = .next t ∧ t.fault = .none ∧
        ((∀ (j : Nat) (hj : j < 16), s.keypad[j] = 0#8) → t.pc = s.pc ∧ t.getV x = s.getV x)

/-- 45_keypad_timers.md R143: `DT` into `V[x]`, `DT` not changed by the instruction; over the tick
the value read is the one before the tick's decrement. -/
def Obligations.LoadDTReadsTheTimer : Prop :=
  ∀ x : Nibble, decodeWord (wordXkk 0xF#4 x 0x07#8) = .loadDT x ∧
    (∀ s, ∃ t, exec (.loadDT x) s = .next t ∧ t.getV x = s.dt ∧ OnlyRegs (· = x) s t) ∧
    ∀ s : State, s.fault = .none → s.fetchInstr = .loadDT x →
      ∃ t, step s = .next t ∧ t.getV x = s.dt ∧ t.dt.toNat = s.dt.toNat - 1

/-- 45_keypad_timers.md R144 (and R145, but for its sentence that no instruction reads `ST`): `V[x]`
into the timer, the other timer left alone; over the tick the timer ends one lower, or at 0. -/
def Obligations.SetTimersCopyTheRegister : Prop :=
  ∀ x : Nibble,
    decodeWord (wordXkk 0xF#4 x 0x15#8) = .setDT x ∧
    decodeWord (wordXkk 0xF#4 x 0x18#8) = .setST x ∧
    (∀ s,
      (∃ t, exec (.setDT x) s = .next t ∧ t.dt = s.getV x ∧ t.st = s.st ∧ OnlyTimers s t) ∧
      (∃ t, exec (.setST x) s = .next t ∧ t.st = s.getV x ∧ t.dt = s.dt ∧ OnlyTimers s t)) ∧
    ∀ s : State, s.fault = .none →
      (s.fetchInstr = .setDT x → ∃ t, step s = .next t ∧
        t.dt.toNat = (s.getV x).toNat - 1 ∧ t.st.toNat = s.st.toNat - 1) ∧
      (s.fetchInstr = .setST x → ∃ t, step s = .next t ∧
        t.st.toNat = (s.getV x).toNat - 1 ∧ t.dt.toNat = s.dt.toNat - 1)

/-! ### Reset and the host's transactions -/

/-- 10_state.md R30 and R31, 70_reset_and_hazards.md R180 (the latch by decision D5; memory in terms
of the parameter `fontset`, whose default bytes are UNVERIFIED, log entry 3): what reset leaves. -/
def Obligations.ResetLeavesTheGivenState : Prop :=
  (∀ a, a < 4096 → State.reset.readByte a =
    if 0x050 ≤ a ∧ a ≤ 0x09F then fontset.getD (a - 0x050) 0#8 else 0#8) ∧
  fontset.length = 80 ∧ (∀ x, State.reset.getV x = 0#8) ∧ State.reset.i = 0#16 ∧
  State.reset.pc = 0x200#16 ∧ (∀ (j : Nat) (h : j < 16), State.reset.stack[j] = 0#16) ∧
  State.reset.sp.val = 0 ∧ (∀ k, k < 2048 → State.reset.pixel k = false) ∧
  State.reset.dt = 0#8 ∧ State.reset.st = 0#8 ∧
  (∀ (j : Nat) (h : j < 16), State.reset.keypad[j] = 0#8) ∧ State.reset.fault = .none

/-- 60_exceptions.md R163 (decision D12, log entry 18): a program of at most 3584 bytes is copied to
0x200 and nothing else changes; a longer one is rejected and changes nothing. -/
def Obligations.LoadCopiesOrIsRejected : Prop :=
  ∀ (s : State) (bytes : List Byte),
    (bytes.length ≤ 3584 → (transact s (.load bytes)).2 = .done ∧
      (∀ (k : Nat) (h : k < bytes.length),
        (transact s (.load bytes)).1.readByte (0x200 + k) = bytes[k]) ∧
      OnlyBytes (fun a => 0x200 ≤ a ∧ a < 0x200 + bytes.length) s (transact s (.load bytes)).1) ∧
    (3584 < bytes.length → transact s (.load bytes) = (s, .loadTooLarge))

/-- 60_exceptions.md R161 and R164 (decisions D9, D12, D13): `reset` gives the reset state whatever
the state was, and `set_key` writes one key and nothing else. -/
def Obligations.ResetAndSetKeyTransactions : Prop :=
  ∀ s : State, transact s .reset = (State.reset, .done) ∧
    ∀ (k : Nibble) (b : Byte),
      (transact s (.setKey k b)).2 = .done ∧
      (∀ (j : Nat) (h : j < 16), (transact s (.setKey k b)).1.keypad[j] =
        if j = k.toNat then b else s.keypad[j]) ∧
      (transact s (.setKey k b)).1 =
        { s with keypad := (transact s (.setKey k b)).1.keypad }

/-- 60_exceptions.md R162 with 42_alu.md R111 (decisions D5, D10; log entry 1): a tick given `rnd`
answers with the latch, and a `Rand` it executes puts `rnd AND kk` into `V[x]`, for every `rnd`. -/
def Obligations.TickSuppliesRnd : Prop :=
  ∀ (s : State) (rnd : Byte),
    (transact s (.tick rnd)).2 = .ticked (transact s (.tick rnd)).1.fault ∧
    ∀ x kk, s.fault = .none → s.fetchInstr = .rand x kk →
      (transact s (.tick rnd)).1.getV x = rnd &&& kk ∧
      SameRegs (· = x) s (transact s (.tick rnd)).1 ∧
      (transact s (.tick rnd)).1.pc = s.pc + 2#16 ∧
      (transact s (.tick rnd)).1.rndIn = s.rndIn ∧ (transact s (.tick rnd)).1.draws = s.draws

/-- A host's transactions keep memory in canonical form, whatever their order (60_exceptions.md R160;
the canonical form is the model's, log entry 20). -/
def Obligations.HostRunsKeepMemoryCanonical : Prop :=
  ∀ (s : State) (ts : List Transaction), s.mem.wf → (s.runHost ts).mem.wf

/-- 30_encoding.md R67 and 70_reset_and_hazards.md R182 (derived by the spec), as far as the words in
memory are 0: a core whose next `k` words are 0 runs `k` times `Sys(0)`, which only advances `pc`,
mod 65536, and the timers, and does not fault. Where all of memory is 0 that goes on for ever. After
reset with nothing loaded it does for 1832 ticks, up to the last word below the fontset; that it
holds no longer is DEDUCED from R30, R41, R43 and R82 (log entry 19). -/
def Obligations.ZeroedMemoryRunsAsSys : Prop :=
  (∀ (s : State) (k : Nat), s.fault = .none →
    (∀ j, j < k → { s with pc := s.pc + BitVec.ofNat 16 (2 * j) }.fetchWord = 0#16) →
    Host.Core.run core k s = .next (afterSysRun k s)) ∧
  (∀ (s : State) (k : Nat), s.fault = .none → (∀ a, a < 4096 → s.readByte a = 0#8) →
    Host.Core.run core k s = .next (afterSysRun k s)) ∧
  ∀ k, k ≤ 1832 → Host.Core.run core k State.reset =
    .next { State.reset with pc := BitVec.ofNat 16 (0x200 + 2 * k) }
end

