-- ==== Sys2Proof/Laws/Decode.lean ====
section
/-! SUPPORT. The fields of a word put together from fields (30_encoding.md R61, R62). -/

namespace Sys2Proof

theorem getLsbD_wordNnn (c : Nibble) (a : Addr12) (i : Nat) :
    (wordNnn c a).getLsbD i = if i < 12 then a.getLsbD i else c.getLsbD (i - 12) :=
  BitVec.getLsbD_append

theorem getLsbD_wordXkk (c x : Nibble) (kk : Byte) (i : Nat) :
    (wordXkk c x kk).getLsbD i =
      if i < 8 then kk.getLsbD i
      else if i - 8 < 4 then x.getLsbD (i - 8) else c.getLsbD (i - 8 - 4) :=
  BitVec.getLsbD_append.trans (by rw [BitVec.getLsbD_append])

theorem getLsbD_wordXyn (c x y n : Nibble) (i : Nat) :
    (wordXyn c x y n).getLsbD i =
      if i < 4 then n.getLsbD i
      else if i - 4 < 4 then y.getLsbD (i - 4)
      else if i - 4 - 4 < 4 then x.getLsbD (i - 4 - 4) else c.getLsbD (i - 4 - 4 - 4) :=
  BitVec.getLsbD_append.trans (by rw [BitVec.getLsbD_append, BitVec.getLsbD_append])

@[simp] theorem fieldClass_wordNnn (c : Nibble) (a : Addr12) :
    fieldClass (wordNnn c a) = c := by
  ext i h; simp [fieldClass, getLsbD_wordNnn, h]

@[simp] theorem fieldNnn_wordNnn (c : Nibble) (a : Addr12) : fieldNnn (wordNnn c a) = a := by
  ext i h; simp [fieldNnn, getLsbD_wordNnn, h]

@[simp] theorem fieldClass_wordXkk (c x : Nibble) (kk : Byte) :
    fieldClass (wordXkk c x kk) = c := by
  ext i h; simp [fieldClass, getLsbD_wordXkk, show ¬(12 + i < 8) by omega,
    show ¬(12 + i - 8 < 4) by omega, show 12 + i - 8 - 4 = i by omega, h]

@[simp] theorem fieldX_wordXkk (c x : Nibble) (kk : Byte) : fieldX (wordXkk c x kk) = x := by
  ext i h; simp [fieldX, getLsbD_wordXkk, h]

@[simp] theorem fieldKk_wordXkk (c x : Nibble) (kk : Byte) : fieldKk (wordXkk c x kk) = kk := by
  ext i h; simp [fieldKk, getLsbD_wordXkk, h]

@[simp] theorem fieldClass_wordXyn (c x y n : Nibble) : fieldClass (wordXyn c x y n) = c := by
  ext i h; simp [fieldClass, getLsbD_wordXyn, show ¬(12 + i < 4) by omega,
    show ¬(12 + i - 4 < 4) by omega, show ¬(12 + i - 4 - 4 < 4) by omega,
    show 12 + i - 4 - 4 - 4 = i by omega, h]

@[simp] theorem fieldX_wordXyn (c x y n : Nibble) : fieldX (wordXyn c x y n) = x := by
  ext i h; simp [fieldX, getLsbD_wordXyn, show ¬(8 + i < 4) by omega,
    show ¬(8 + i - 4 < 4) by omega, show 8 + i - 4 - 4 = i by omega, h]

@[simp] theorem fieldY_wordXyn (c x y n : Nibble) : fieldY (wordXyn c x y n) = y := by
  ext i h; simp [fieldY, getLsbD_wordXyn, h]

@[simp] theorem fieldN_wordXyn (c x y n : Nibble) : fieldN (wordXyn c x y n) = n := by
  ext i h; simp [fieldN, getLsbD_wordXyn, h]

/-- A word is its class and address put together. -/
theorem wordNnn_fields (w : Word) : wordNnn (fieldClass w) (fieldNnn w) = w := by
  apply BitVec.eq_of_getLsbD_eq
  intro i hi
  rw [getLsbD_wordNnn]
  by_cases h : i < 12
  · simp [h, fieldNnn]
  · simp [h, fieldClass, show i - 12 < 4 by omega, show 12 + (i - 12) = i by omega]

/-- A word is its class, `x` and low byte put together. -/
theorem wordXkk_fields (w : Word) : wordXkk (fieldClass w) (fieldX w) (fieldKk w) = w := by
  apply BitVec.eq_of_getLsbD_eq
  intro i hi
  rw [getLsbD_wordXkk]
  by_cases h : i < 8
  · simp [h, fieldKk]
  · by_cases h' : i - 8 < 4
    · simp [h, h', fieldX, show 8 + (i - 8) = i by omega]
    · simp [h, h', fieldClass, show i - 8 - 4 < 4 by omega, show 12 + (i - 8 - 4) = i by omega]

/-- A word is its four nibbles put together. -/
theorem wordXyn_fields (w : Word) :
    wordXyn (fieldClass w) (fieldX w) (fieldY w) (fieldN w) = w := by
  apply BitVec.eq_of_getLsbD_eq
  intro i hi
  rw [getLsbD_wordXyn]
  by_cases h : i < 4
  · simp [h, fieldN]
  · by_cases h' : i - 4 < 4
    · simp [h, h', fieldY, show 4 + (i - 4) = i by omega]
    · by_cases h'' : i - 4 - 4 < 4
      · simp [h, h', h'', fieldX, show 8 + (i - 4 - 4) = i by omega]
      · simp [h, h', h'', fieldClass, show i - 4 - 4 - 4 < 4 by omega,
          show 12 + (i - 4 - 4 - 4) = i by omega]

/-- What mask 0xF000 selects (30_encoding.md R63). -/
theorem and_maskClass (w : Word) : w &&& 0xF000#16 = wordNnn (fieldClass w) 0#12 := by
  apply BitVec.eq_of_getLsbD_eq
  intro i hi
  rw [getLsbD_wordNnn]
  interval_cases i <;> simp [fieldClass]

/-- What mask 0xF00F selects. -/
theorem and_maskNibble (w : Word) :
    w &&& 0xF00F#16 = wordXyn (fieldClass w) 0#4 0#4 (fieldN w) := by
  apply BitVec.eq_of_getLsbD_eq
  intro i hi
  rw [getLsbD_wordXyn]
  interval_cases i <;> simp [fieldClass, fieldN]

/-- What mask 0xF0FF selects. -/
theorem and_maskByte (w : Word) : w &&& 0xF0FF#16 = wordXkk (fieldClass w) 0#4 (fieldKk w) := by
  apply BitVec.eq_of_getLsbD_eq
  intro i hi
  rw [getLsbD_wordXkk]
  interval_cases i <;> simp [fieldClass, fieldKk]

/-- A word whose class is not 0 is neither `Cls` nor `Ret` (30_encoding.md R64). -/
theorem not_exact_of_class {w : Word} (h : fieldClass w ≠ 0#4) : w ≠ 0x00E0#16 ∧ w ≠ 0x00EE#16 := by
  constructor <;> (rintro rfl; exact h (by decide))

/-- A word of class 0 is `Cls` or `Ret` by its address field alone (R64, R72). -/
theorem not_exact_of_nnn {w : Word} (h : fieldNnn w ≠ 0x0E0#12) (h' : fieldNnn w ≠ 0x0EE#12) :
    w ≠ 0x00E0#16 ∧ w ≠ 0x00EE#16 := by
  constructor
  · rintro rfl; exact h (by decide)
  · rintro rfl; exact h' (by decide)

/-- The decoder on a word that is neither exact match: by its class (R65). -/
theorem decodeWord_of_not_exact {w : Word} (h : w ≠ 0x00E0#16 ∧ w ≠ 0x00EE#16) :
    decodeWord w =
      match fieldClass w with
      | 0x0#4 => .sys (fieldNnn w)
      | 0x1#4 => .jump (fieldNnn w)
      | 0x2#4 => .call (fieldNnn w)
      | 0x3#4 => .skipEqByte (fieldX w) (fieldKk w)
      | 0x4#4 => .skipNeByte (fieldX w) (fieldKk w)
      | 0x5#4 => if fieldN w = 0#4 then .skipEqReg (fieldX w) (fieldY w) else .noOp
      | 0x6#4 => .loadByte (fieldX w) (fieldKk w)
      | 0x7#4 => .addByte (fieldX w) (fieldKk w)
      | 0x8#4 => decodeClass8 (fieldX w) (fieldY w) (fieldN w)
      | 0x9#4 => if fieldN w = 0#4 then .skipNeReg (fieldX w) (fieldY w) else .noOp
      | 0xA#4 => .loadI (fieldNnn w)
      | 0xB#4 => .jumpV0 (fieldNnn w)
      | 0xC#4 => .rand (fieldX w) (fieldKk w)
      | 0xD#4 => .draw (fieldX w) (fieldY w) (fieldN w)
      | 0xE#4 => decodeClassE (fieldX w) (fieldKk w)
      | _ => decodeClassF (fieldX w) (fieldKk w) := by
  unfold decodeWord
  exact (if_neg h.1).trans (if_neg h.2)

/-- A nibble is one of sixteen. -/
theorem nibble_cases (c : Nibble) :
    c = 0#4 ∨ c = 1#4 ∨ c = 2#4 ∨ c = 3#4 ∨ c = 4#4 ∨ c = 5#4 ∨ c = 6#4 ∨ c = 7#4 ∨ c = 8#4
      ∨ c = 9#4 ∨ c = 10#4 ∨ c = 11#4 ∨ c = 12#4 ∨ c = 13#4 ∨ c = 14#4 ∨ c = 15#4 := by
  have := c.isLt
  simp only [← BitVec.toNat_inj, BitVec.toNat_ofNat]
  omega

/-- A class that is none of the first fifteen is 0xF: the last arm of R65. -/
theorem class_eq_15 {c : Nibble} (h : ∀ k : Nat, k < 15 → c ≠ BitVec.ofNat 4 k) : c = 15#4 := by
  by_contra hc
  have hn := c.isLt
  have hk : c.toNat ≠ 15 := fun e => hc (BitVec.eq_of_toNat_eq (by simpa using e))
  exact h c.toNat (by omega) (by simp)

/-- The two bytes of a word, put together again, are the word (20_memory.md R43). -/
theorem wordOfBytes_bytes (w : Word) :
    wordOfBytes (w.extractLsb' 8 8) (w.extractLsb' 0 8) = w := by
  apply BitVec.eq_of_getLsbD_eq
  intro i hi
  refine (BitVec.getLsbD_append (x := w.extractLsb' 8 8) (y := w.extractLsb' 0 8)).trans ?_
  by_cases h : i < 8
  · simp [h]
  · simp [h, show i - 8 < 8 by omega, show 8 + (i - 8) = i by omega]

end Sys2Proof
end

