-- ==== Sys2Proof/Laws/State.lean ====
section
/-! SUPPORT. One lemma per field per update of the state, true by `rfl`, and the same for the
accessors that read one field. -/

namespace Sys2Proof.Machine

/-! ### `State.setV` -/

@[simp] theorem State.setV_mem (s : State) (x : Nibble) (b : Byte) : (s.setV x b).mem = s.mem := rfl
@[simp] theorem State.setV_v (s : State) (x : Nibble) (b : Byte) : (s.setV x b).v = s.v.set x.toNat b x.isLt := rfl
@[simp] theorem State.setV_i (s : State) (x : Nibble) (b : Byte) : (s.setV x b).i = s.i := rfl
@[simp] theorem State.setV_pc (s : State) (x : Nibble) (b : Byte) : (s.setV x b).pc = s.pc := rfl
@[simp] theorem State.setV_stack (s : State) (x : Nibble) (b : Byte) : (s.setV x b).stack = s.stack := rfl
@[simp] theorem State.setV_sp (s : State) (x : Nibble) (b : Byte) : (s.setV x b).sp = s.sp := rfl
@[simp] theorem State.setV_gfx (s : State) (x : Nibble) (b : Byte) : (s.setV x b).gfx = s.gfx := rfl
@[simp] theorem State.setV_dt (s : State) (x : Nibble) (b : Byte) : (s.setV x b).dt = s.dt := rfl
@[simp] theorem State.setV_st (s : State) (x : Nibble) (b : Byte) : (s.setV x b).st = s.st := rfl
@[simp] theorem State.setV_keypad (s : State) (x : Nibble) (b : Byte) : (s.setV x b).keypad = s.keypad := rfl
@[simp] theorem State.setV_fault (s : State) (x : Nibble) (b : Byte) : (s.setV x b).fault = s.fault := rfl
@[simp] theorem State.setV_rndIn (s : State) (x : Nibble) (b : Byte) : (s.setV x b).rndIn = s.rndIn := rfl
@[simp] theorem State.setV_draws (s : State) (x : Nibble) (b : Byte) : (s.setV x b).draws = s.draws := rfl
@[simp] theorem State.setV_readByte (s : State) (x : Nibble) (b : Byte) (c : Nat) :
    (s.setV x b).readByte c = s.readByte c := rfl
@[simp] theorem State.setV_pixel (s : State) (x : Nibble) (b : Byte) (k : Nat) :
    (s.setV x b).pixel k = s.pixel k := rfl
@[simp] theorem State.setV_pressed (s : State) (x : Nibble) (b : Byte) (k : Nat) :
    (s.setV x b).pressed k = s.pressed k := rfl

/-! ### `State.setI` -/

@[simp] theorem State.setI_mem (s : State) (w : Word) : (s.setI w).mem = s.mem := rfl
@[simp] theorem State.setI_v (s : State) (w : Word) : (s.setI w).v = s.v := rfl
@[simp] theorem State.setI_i (s : State) (w : Word) : (s.setI w).i = w := rfl
@[simp] theorem State.setI_pc (s : State) (w : Word) : (s.setI w).pc = s.pc := rfl
@[simp] theorem State.setI_stack (s : State) (w : Word) : (s.setI w).stack = s.stack := rfl
@[simp] theorem State.setI_sp (s : State) (w : Word) : (s.setI w).sp = s.sp := rfl
@[simp] theorem State.setI_gfx (s : State) (w : Word) : (s.setI w).gfx = s.gfx := rfl
@[simp] theorem State.setI_dt (s : State) (w : Word) : (s.setI w).dt = s.dt := rfl
@[simp] theorem State.setI_st (s : State) (w : Word) : (s.setI w).st = s.st := rfl
@[simp] theorem State.setI_keypad (s : State) (w : Word) : (s.setI w).keypad = s.keypad := rfl
@[simp] theorem State.setI_fault (s : State) (w : Word) : (s.setI w).fault = s.fault := rfl
@[simp] theorem State.setI_rndIn (s : State) (w : Word) : (s.setI w).rndIn = s.rndIn := rfl
@[simp] theorem State.setI_draws (s : State) (w : Word) : (s.setI w).draws = s.draws := rfl
@[simp] theorem State.setI_getV (s : State) (w : Word) (j : Nibble) :
    (s.setI w).getV j = s.getV j := rfl
@[simp] theorem State.setI_readByte (s : State) (w : Word) (c : Nat) :
    (s.setI w).readByte c = s.readByte c := rfl
@[simp] theorem State.setI_pixel (s : State) (w : Word) (k : Nat) :
    (s.setI w).pixel k = s.pixel k := rfl
@[simp] theorem State.setI_pressed (s : State) (w : Word) (k : Nat) :
    (s.setI w).pressed k = s.pressed k := rfl

/-! ### `State.setPc` -/

@[simp] theorem State.setPc_mem (s : State) (w : Word) : (s.setPc w).mem = s.mem := rfl
@[simp] theorem State.setPc_v (s : State) (w : Word) : (s.setPc w).v = s.v := rfl
@[simp] theorem State.setPc_i (s : State) (w : Word) : (s.setPc w).i = s.i := rfl
@[simp] theorem State.setPc_pc (s : State) (w : Word) : (s.setPc w).pc = w := rfl
@[simp] theorem State.setPc_stack (s : State) (w : Word) : (s.setPc w).stack = s.stack := rfl
@[simp] theorem State.setPc_sp (s : State) (w : Word) : (s.setPc w).sp = s.sp := rfl
@[simp] theorem State.setPc_gfx (s : State) (w : Word) : (s.setPc w).gfx = s.gfx := rfl
@[simp] theorem State.setPc_dt (s : State) (w : Word) : (s.setPc w).dt = s.dt := rfl
@[simp] theorem State.setPc_st (s : State) (w : Word) : (s.setPc w).st = s.st := rfl
@[simp] theorem State.setPc_keypad (s : State) (w : Word) : (s.setPc w).keypad = s.keypad := rfl
@[simp] theorem State.setPc_fault (s : State) (w : Word) : (s.setPc w).fault = s.fault := rfl
@[simp] theorem State.setPc_rndIn (s : State) (w : Word) : (s.setPc w).rndIn = s.rndIn := rfl
@[simp] theorem State.setPc_draws (s : State) (w : Word) : (s.setPc w).draws = s.draws := rfl
@[simp] theorem State.setPc_getV (s : State) (w : Word) (j : Nibble) :
    (s.setPc w).getV j = s.getV j := rfl
@[simp] theorem State.setPc_readByte (s : State) (w : Word) (c : Nat) :
    (s.setPc w).readByte c = s.readByte c := rfl
@[simp] theorem State.setPc_pixel (s : State) (w : Word) (k : Nat) :
    (s.setPc w).pixel k = s.pixel k := rfl
@[simp] theorem State.setPc_pressed (s : State) (w : Word) (k : Nat) :
    (s.setPc w).pressed k = s.pressed k := rfl

/-! ### `State.advancePc` -/

@[simp] theorem State.advancePc_mem (s : State) : (s.advancePc).mem = s.mem := rfl
@[simp] theorem State.advancePc_v (s : State) : (s.advancePc).v = s.v := rfl
@[simp] theorem State.advancePc_i (s : State) : (s.advancePc).i = s.i := rfl
@[simp] theorem State.advancePc_pc (s : State) : (s.advancePc).pc = s.pc + 2#16 := rfl
@[simp] theorem State.advancePc_stack (s : State) : (s.advancePc).stack = s.stack := rfl
@[simp] theorem State.advancePc_sp (s : State) : (s.advancePc).sp = s.sp := rfl
@[simp] theorem State.advancePc_gfx (s : State) : (s.advancePc).gfx = s.gfx := rfl
@[simp] theorem State.advancePc_dt (s : State) : (s.advancePc).dt = s.dt := rfl
@[simp] theorem State.advancePc_st (s : State) : (s.advancePc).st = s.st := rfl
@[simp] theorem State.advancePc_keypad (s : State) : (s.advancePc).keypad = s.keypad := rfl
@[simp] theorem State.advancePc_fault (s : State) : (s.advancePc).fault = s.fault := rfl
@[simp] theorem State.advancePc_rndIn (s : State) : (s.advancePc).rndIn = s.rndIn := rfl
@[simp] theorem State.advancePc_draws (s : State) : (s.advancePc).draws = s.draws := rfl
@[simp] theorem State.advancePc_getV (s : State) (j : Nibble) :
    (s.advancePc).getV j = s.getV j := rfl
@[simp] theorem State.advancePc_readByte (s : State) (c : Nat) :
    (s.advancePc).readByte c = s.readByte c := rfl
@[simp] theorem State.advancePc_pixel (s : State) (k : Nat) :
    (s.advancePc).pixel k = s.pixel k := rfl
@[simp] theorem State.advancePc_pressed (s : State) (k : Nat) :
    (s.advancePc).pressed k = s.pressed k := rfl

/-! ### `State.rewindPc` -/

@[simp] theorem State.rewindPc_mem (s : State) : (s.rewindPc).mem = s.mem := rfl
@[simp] theorem State.rewindPc_v (s : State) : (s.rewindPc).v = s.v := rfl
@[simp] theorem State.rewindPc_i (s : State) : (s.rewindPc).i = s.i := rfl
@[simp] theorem State.rewindPc_pc (s : State) : (s.rewindPc).pc = s.pc - 2#16 := rfl
@[simp] theorem State.rewindPc_stack (s : State) : (s.rewindPc).stack = s.stack := rfl
@[simp] theorem State.rewindPc_sp (s : State) : (s.rewindPc).sp = s.sp := rfl
@[simp] theorem State.rewindPc_gfx (s : State) : (s.rewindPc).gfx = s.gfx := rfl
@[simp] theorem State.rewindPc_dt (s : State) : (s.rewindPc).dt = s.dt := rfl
@[simp] theorem State.rewindPc_st (s : State) : (s.rewindPc).st = s.st := rfl
@[simp] theorem State.rewindPc_keypad (s : State) : (s.rewindPc).keypad = s.keypad := rfl
@[simp] theorem State.rewindPc_fault (s : State) : (s.rewindPc).fault = s.fault := rfl
@[simp] theorem State.rewindPc_rndIn (s : State) : (s.rewindPc).rndIn = s.rndIn := rfl
@[simp] theorem State.rewindPc_draws (s : State) : (s.rewindPc).draws = s.draws := rfl
@[simp] theorem State.rewindPc_getV (s : State) (j : Nibble) :
    (s.rewindPc).getV j = s.getV j := rfl
@[simp] theorem State.rewindPc_readByte (s : State) (c : Nat) :
    (s.rewindPc).readByte c = s.readByte c := rfl
@[simp] theorem State.rewindPc_pixel (s : State) (k : Nat) :
    (s.rewindPc).pixel k = s.pixel k := rfl
@[simp] theorem State.rewindPc_pressed (s : State) (k : Nat) :
    (s.rewindPc).pressed k = s.pressed k := rfl

/-! ### `State.setDT` -/

@[simp] theorem State.setDT_mem (s : State) (b : Byte) : (s.setDT b).mem = s.mem := rfl
@[simp] theorem State.setDT_v (s : State) (b : Byte) : (s.setDT b).v = s.v := rfl
@[simp] theorem State.setDT_i (s : State) (b : Byte) : (s.setDT b).i = s.i := rfl
@[simp] theorem State.setDT_pc (s : State) (b : Byte) : (s.setDT b).pc = s.pc := rfl
@[simp] theorem State.setDT_stack (s : State) (b : Byte) : (s.setDT b).stack = s.stack := rfl
@[simp] theorem State.setDT_sp (s : State) (b : Byte) : (s.setDT b).sp = s.sp := rfl
@[simp] theorem State.setDT_gfx (s : State) (b : Byte) : (s.setDT b).gfx = s.gfx := rfl
@[simp] theorem State.setDT_dt (s : State) (b : Byte) : (s.setDT b).dt = b := rfl
@[simp] theorem State.setDT_st (s : State) (b : Byte) : (s.setDT b).st = s.st := rfl
@[simp] theorem State.setDT_keypad (s : State) (b : Byte) : (s.setDT b).keypad = s.keypad := rfl
@[simp] theorem State.setDT_fault (s : State) (b : Byte) : (s.setDT b).fault = s.fault := rfl
@[simp] theorem State.setDT_rndIn (s : State) (b : Byte) : (s.setDT b).rndIn = s.rndIn := rfl
@[simp] theorem State.setDT_draws (s : State) (b : Byte) : (s.setDT b).draws = s.draws := rfl
@[simp] theorem State.setDT_getV (s : State) (b : Byte) (j : Nibble) :
    (s.setDT b).getV j = s.getV j := rfl
@[simp] theorem State.setDT_readByte (s : State) (b : Byte) (c : Nat) :
    (s.setDT b).readByte c = s.readByte c := rfl
@[simp] theorem State.setDT_pixel (s : State) (b : Byte) (k : Nat) :
    (s.setDT b).pixel k = s.pixel k := rfl
@[simp] theorem State.setDT_pressed (s : State) (b : Byte) (k : Nat) :
    (s.setDT b).pressed k = s.pressed k := rfl

/-! ### `State.setST` -/

@[simp] theorem State.setST_mem (s : State) (b : Byte) : (s.setST b).mem = s.mem := rfl
@[simp] theorem State.setST_v (s : State) (b : Byte) : (s.setST b).v = s.v := rfl
@[simp] theorem State.setST_i (s : State) (b : Byte) : (s.setST b).i = s.i := rfl
@[simp] theorem State.setST_pc (s : State) (b : Byte) : (s.setST b).pc = s.pc := rfl
@[simp] theorem State.setST_stack (s : State) (b : Byte) : (s.setST b).stack = s.stack := rfl
@[simp] theorem State.setST_sp (s : State) (b : Byte) : (s.setST b).sp = s.sp := rfl
@[simp] theorem State.setST_gfx (s : State) (b : Byte) : (s.setST b).gfx = s.gfx := rfl
@[simp] theorem State.setST_dt (s : State) (b : Byte) : (s.setST b).dt = s.dt := rfl
@[simp] theorem State.setST_st (s : State) (b : Byte) : (s.setST b).st = b := rfl
@[simp] theorem State.setST_keypad (s : State) (b : Byte) : (s.setST b).keypad = s.keypad := rfl
@[simp] theorem State.setST_fault (s : State) (b : Byte) : (s.setST b).fault = s.fault := rfl
@[simp] theorem State.setST_rndIn (s : State) (b : Byte) : (s.setST b).rndIn = s.rndIn := rfl
@[simp] theorem State.setST_draws (s : State) (b : Byte) : (s.setST b).draws = s.draws := rfl
@[simp] theorem State.setST_getV (s : State) (b : Byte) (j : Nibble) :
    (s.setST b).getV j = s.getV j := rfl
@[simp] theorem State.setST_readByte (s : State) (b : Byte) (c : Nat) :
    (s.setST b).readByte c = s.readByte c := rfl
@[simp] theorem State.setST_pixel (s : State) (b : Byte) (k : Nat) :
    (s.setST b).pixel k = s.pixel k := rfl
@[simp] theorem State.setST_pressed (s : State) (b : Byte) (k : Nat) :
    (s.setST b).pressed k = s.pressed k := rfl

/-! ### `State.clearGfx` -/

@[simp] theorem State.clearGfx_mem (s : State) : (s.clearGfx).mem = s.mem := rfl
@[simp] theorem State.clearGfx_v (s : State) : (s.clearGfx).v = s.v := rfl
@[simp] theorem State.clearGfx_i (s : State) : (s.clearGfx).i = s.i := rfl
@[simp] theorem State.clearGfx_pc (s : State) : (s.clearGfx).pc = s.pc := rfl
@[simp] theorem State.clearGfx_stack (s : State) : (s.clearGfx).stack = s.stack := rfl
@[simp] theorem State.clearGfx_sp (s : State) : (s.clearGfx).sp = s.sp := rfl
@[simp] theorem State.clearGfx_gfx (s : State) : (s.clearGfx).gfx = Vector.replicate 32 0#64 := rfl
@[simp] theorem State.clearGfx_dt (s : State) : (s.clearGfx).dt = s.dt := rfl
@[simp] theorem State.clearGfx_st (s : State) : (s.clearGfx).st = s.st := rfl
@[simp] theorem State.clearGfx_keypad (s : State) : (s.clearGfx).keypad = s.keypad := rfl
@[simp] theorem State.clearGfx_fault (s : State) : (s.clearGfx).fault = s.fault := rfl
@[simp] theorem State.clearGfx_rndIn (s : State) : (s.clearGfx).rndIn = s.rndIn := rfl
@[simp] theorem State.clearGfx_draws (s : State) : (s.clearGfx).draws = s.draws := rfl
@[simp] theorem State.clearGfx_getV (s : State) (j : Nibble) :
    (s.clearGfx).getV j = s.getV j := rfl
@[simp] theorem State.clearGfx_readByte (s : State) (c : Nat) :
    (s.clearGfx).readByte c = s.readByte c := rfl
@[simp] theorem State.clearGfx_pressed (s : State) (k : Nat) :
    (s.clearGfx).pressed k = s.pressed k := rfl

/-! ### `State.writeByte` -/

@[simp] theorem State.writeByte_mem (s : State) (a : Nat) (b : Byte) : (s.writeByte a b).mem = s.mem.store (a % Config.memSize) b := rfl
@[simp] theorem State.writeByte_v (s : State) (a : Nat) (b : Byte) : (s.writeByte a b).v = s.v := rfl
@[simp] theorem State.writeByte_i (s : State) (a : Nat) (b : Byte) : (s.writeByte a b).i = s.i := rfl
@[simp] theorem State.writeByte_pc (s : State) (a : Nat) (b : Byte) : (s.writeByte a b).pc = s.pc := rfl
@[simp] theorem State.writeByte_stack (s : State) (a : Nat) (b : Byte) : (s.writeByte a b).stack = s.stack := rfl
@[simp] theorem State.writeByte_sp (s : State) (a : Nat) (b : Byte) : (s.writeByte a b).sp = s.sp := rfl
@[simp] theorem State.writeByte_gfx (s : State) (a : Nat) (b : Byte) : (s.writeByte a b).gfx = s.gfx := rfl
@[simp] theorem State.writeByte_dt (s : State) (a : Nat) (b : Byte) : (s.writeByte a b).dt = s.dt := rfl
@[simp] theorem State.writeByte_st (s : State) (a : Nat) (b : Byte) : (s.writeByte a b).st = s.st := rfl
@[simp] theorem State.writeByte_keypad (s : State) (a : Nat) (b : Byte) : (s.writeByte a b).keypad = s.keypad := rfl
@[simp] theorem State.writeByte_fault (s : State) (a : Nat) (b : Byte) : (s.writeByte a b).fault = s.fault := rfl
@[simp] theorem State.writeByte_rndIn (s : State) (a : Nat) (b : Byte) : (s.writeByte a b).rndIn = s.rndIn := rfl
@[simp] theorem State.writeByte_draws (s : State) (a : Nat) (b : Byte) : (s.writeByte a b).draws = s.draws := rfl
@[simp] theorem State.writeByte_getV (s : State) (a : Nat) (b : Byte) (j : Nibble) :
    (s.writeByte a b).getV j = s.getV j := rfl
@[simp] theorem State.writeByte_pixel (s : State) (a : Nat) (b : Byte) (k : Nat) :
    (s.writeByte a b).pixel k = s.pixel k := rfl
@[simp] theorem State.writeByte_pressed (s : State) (a : Nat) (b : Byte) (k : Nat) :
    (s.writeByte a b).pressed k = s.pressed k := rfl

/-! ### `State.dropRnd` -/

@[simp] theorem State.dropRnd_mem (s : State) : (s.dropRnd).mem = s.mem := rfl
@[simp] theorem State.dropRnd_v (s : State) : (s.dropRnd).v = s.v := rfl
@[simp] theorem State.dropRnd_i (s : State) : (s.dropRnd).i = s.i := rfl
@[simp] theorem State.dropRnd_pc (s : State) : (s.dropRnd).pc = s.pc := rfl
@[simp] theorem State.dropRnd_stack (s : State) : (s.dropRnd).stack = s.stack := rfl
@[simp] theorem State.dropRnd_sp (s : State) : (s.dropRnd).sp = s.sp := rfl
@[simp] theorem State.dropRnd_gfx (s : State) : (s.dropRnd).gfx = s.gfx := rfl
@[simp] theorem State.dropRnd_dt (s : State) : (s.dropRnd).dt = s.dt := rfl
@[simp] theorem State.dropRnd_st (s : State) : (s.dropRnd).st = s.st := rfl
@[simp] theorem State.dropRnd_keypad (s : State) : (s.dropRnd).keypad = s.keypad := rfl
@[simp] theorem State.dropRnd_fault (s : State) : (s.dropRnd).fault = s.fault := rfl
@[simp] theorem State.dropRnd_rndIn (s : State) : (s.dropRnd).rndIn = s.rndIn.tail := rfl
@[simp] theorem State.dropRnd_draws (s : State) : (s.dropRnd).draws = s.draws := rfl
@[simp] theorem State.dropRnd_getV (s : State) (j : Nibble) :
    (s.dropRnd).getV j = s.getV j := rfl
@[simp] theorem State.dropRnd_readByte (s : State) (c : Nat) :
    (s.dropRnd).readByte c = s.readByte c := rfl
@[simp] theorem State.dropRnd_pixel (s : State) (k : Nat) :
    (s.dropRnd).pixel k = s.pixel k := rfl
@[simp] theorem State.dropRnd_pressed (s : State) (k : Nat) :
    (s.dropRnd).pressed k = s.pressed k := rfl

/-! ### `State.decrementTimers` -/

@[simp] theorem State.decrementTimers_mem (s : State) : (s.decrementTimers).mem = s.mem := rfl
@[simp] theorem State.decrementTimers_v (s : State) : (s.decrementTimers).v = s.v := rfl
@[simp] theorem State.decrementTimers_i (s : State) : (s.decrementTimers).i = s.i := rfl
@[simp] theorem State.decrementTimers_pc (s : State) : (s.decrementTimers).pc = s.pc := rfl
@[simp] theorem State.decrementTimers_stack (s : State) : (s.decrementTimers).stack = s.stack := rfl
@[simp] theorem State.decrementTimers_sp (s : State) : (s.decrementTimers).sp = s.sp := rfl
@[simp] theorem State.decrementTimers_gfx (s : State) : (s.decrementTimers).gfx = s.gfx := rfl
@[simp] theorem State.decrementTimers_dt (s : State) : (s.decrementTimers).dt = countDown s.dt := rfl
@[simp] theorem State.decrementTimers_st (s : State) : (s.decrementTimers).st = countDown s.st := rfl
@[simp] theorem State.decrementTimers_keypad (s : State) : (s.decrementTimers).keypad = s.keypad := rfl
@[simp] theorem State.decrementTimers_fault (s : State) : (s.decrementTimers).fault = s.fault := rfl
@[simp] theorem State.decrementTimers_rndIn (s : State) : (s.decrementTimers).rndIn = s.rndIn := rfl
@[simp] theorem State.decrementTimers_draws (s : State) : (s.decrementTimers).draws = s.draws := rfl
@[simp] theorem State.decrementTimers_getV (s : State) (j : Nibble) :
    (s.decrementTimers).getV j = s.getV j := rfl
@[simp] theorem State.decrementTimers_readByte (s : State) (c : Nat) :
    (s.decrementTimers).readByte c = s.readByte c := rfl
@[simp] theorem State.decrementTimers_pixel (s : State) (k : Nat) :
    (s.decrementTimers).pixel k = s.pixel k := rfl
@[simp] theorem State.decrementTimers_pressed (s : State) (k : Nat) :
    (s.decrementTimers).pressed k = s.pressed k := rfl

/-! ### `State.endTick` -/

@[simp] theorem State.endTick_mem (s : State) : (s.endTick).mem = s.mem := rfl
@[simp] theorem State.endTick_v (s : State) : (s.endTick).v = s.v := rfl
@[simp] theorem State.endTick_i (s : State) : (s.endTick).i = s.i := rfl
@[simp] theorem State.endTick_pc (s : State) : (s.endTick).pc = s.pc := rfl
@[simp] theorem State.endTick_stack (s : State) : (s.endTick).stack = s.stack := rfl
@[simp] theorem State.endTick_sp (s : State) : (s.endTick).sp = s.sp := rfl
@[simp] theorem State.endTick_gfx (s : State) : (s.endTick).gfx = s.gfx := rfl
@[simp] theorem State.endTick_dt (s : State) : (s.endTick).dt = countDown s.dt := rfl
@[simp] theorem State.endTick_st (s : State) : (s.endTick).st = countDown s.st := rfl
@[simp] theorem State.endTick_keypad (s : State) : (s.endTick).keypad = s.keypad := rfl
@[simp] theorem State.endTick_fault (s : State) : (s.endTick).fault = s.fault := rfl
@[simp] theorem State.endTick_rndIn (s : State) : (s.endTick).rndIn = s.rndIn.tail := rfl
@[simp] theorem State.endTick_draws (s : State) : (s.endTick).draws = s.draws := rfl
@[simp] theorem State.endTick_getV (s : State) (j : Nibble) :
    (s.endTick).getV j = s.getV j := rfl
@[simp] theorem State.endTick_readByte (s : State) (c : Nat) :
    (s.endTick).readByte c = s.readByte c := rfl
@[simp] theorem State.endTick_pixel (s : State) (k : Nat) :
    (s.endTick).pixel k = s.pixel k := rfl
@[simp] theorem State.endTick_pressed (s : State) (k : Nat) :
    (s.endTick).pressed k = s.pressed k := rfl

/-! ### `State.takeFault` -/

@[simp] theorem State.takeFault_mem (s : State) (f : FaultLatch) : (s.takeFault f).mem = s.mem := rfl
@[simp] theorem State.takeFault_v (s : State) (f : FaultLatch) : (s.takeFault f).v = s.v := rfl
@[simp] theorem State.takeFault_i (s : State) (f : FaultLatch) : (s.takeFault f).i = s.i := rfl
@[simp] theorem State.takeFault_pc (s : State) (f : FaultLatch) : (s.takeFault f).pc = s.pc - 2#16 := rfl
@[simp] theorem State.takeFault_stack (s : State) (f : FaultLatch) : (s.takeFault f).stack = s.stack := rfl
@[simp] theorem State.takeFault_sp (s : State) (f : FaultLatch) : (s.takeFault f).sp = s.sp := rfl
@[simp] theorem State.takeFault_gfx (s : State) (f : FaultLatch) : (s.takeFault f).gfx = s.gfx := rfl
@[simp] theorem State.takeFault_dt (s : State) (f : FaultLatch) : (s.takeFault f).dt = s.dt := rfl
@[simp] theorem State.takeFault_st (s : State) (f : FaultLatch) : (s.takeFault f).st = s.st := rfl
@[simp] theorem State.takeFault_keypad (s : State) (f : FaultLatch) : (s.takeFault f).keypad = s.keypad := rfl
@[simp] theorem State.takeFault_fault (s : State) (f : FaultLatch) : (s.takeFault f).fault = f := rfl
@[simp] theorem State.takeFault_rndIn (s : State) (f : FaultLatch) : (s.takeFault f).rndIn = s.rndIn := rfl
@[simp] theorem State.takeFault_draws (s : State) (f : FaultLatch) : (s.takeFault f).draws = s.draws := rfl
@[simp] theorem State.takeFault_getV (s : State) (f : FaultLatch) (j : Nibble) :
    (s.takeFault f).getV j = s.getV j := rfl
@[simp] theorem State.takeFault_readByte (s : State) (f : FaultLatch) (c : Nat) :
    (s.takeFault f).readByte c = s.readByte c := rfl
@[simp] theorem State.takeFault_pixel (s : State) (f : FaultLatch) (k : Nat) :
    (s.takeFault f).pixel k = s.pixel k := rfl
@[simp] theorem State.takeFault_pressed (s : State) (f : FaultLatch) (k : Nat) :
    (s.takeFault f).pressed k = s.pressed k := rfl

/-! ### `State.writeFlagged` -/

@[simp] theorem State.writeFlagged_mem (s : State) (f : Bool) (x : Nibble) (b : Byte) : (s.writeFlagged f x b).mem = s.mem := rfl
@[simp] theorem State.writeFlagged_i (s : State) (f : Bool) (x : Nibble) (b : Byte) : (s.writeFlagged f x b).i = s.i := rfl
@[simp] theorem State.writeFlagged_pc (s : State) (f : Bool) (x : Nibble) (b : Byte) : (s.writeFlagged f x b).pc = s.pc := rfl
@[simp] theorem State.writeFlagged_stack (s : State) (f : Bool) (x : Nibble) (b : Byte) : (s.writeFlagged f x b).stack = s.stack := rfl
@[simp] theorem State.writeFlagged_sp (s : State) (f : Bool) (x : Nibble) (b : Byte) : (s.writeFlagged f x b).sp = s.sp := rfl
@[simp] theorem State.writeFlagged_gfx (s : State) (f : Bool) (x : Nibble) (b : Byte) : (s.writeFlagged f x b).gfx = s.gfx := rfl
@[simp] theorem State.writeFlagged_dt (s : State) (f : Bool) (x : Nibble) (b : Byte) : (s.writeFlagged f x b).dt = s.dt := rfl
@[simp] theorem State.writeFlagged_st (s : State) (f : Bool) (x : Nibble) (b : Byte) : (s.writeFlagged f x b).st = s.st := rfl
@[simp] theorem State.writeFlagged_keypad (s : State) (f : Bool) (x : Nibble) (b : Byte) : (s.writeFlagged f x b).keypad = s.keypad := rfl
@[simp] theorem State.writeFlagged_fault (s : State) (f : Bool) (x : Nibble) (b : Byte) : (s.writeFlagged f x b).fault = s.fault := rfl
@[simp] theorem State.writeFlagged_rndIn (s : State) (f : Bool) (x : Nibble) (b : Byte) : (s.writeFlagged f x b).rndIn = s.rndIn := rfl
@[simp] theorem State.writeFlagged_draws (s : State) (f : Bool) (x : Nibble) (b : Byte) : (s.writeFlagged f x b).draws = s.draws := rfl
@[simp] theorem State.writeFlagged_readByte (s : State) (f : Bool) (x : Nibble) (b : Byte) (c : Nat) :
    (s.writeFlagged f x b).readByte c = s.readByte c := rfl
@[simp] theorem State.writeFlagged_pixel (s : State) (f : Bool) (x : Nibble) (b : Byte) (k : Nat) :
    (s.writeFlagged f x b).pixel k = s.pixel k := rfl
@[simp] theorem State.writeFlagged_pressed (s : State) (f : Bool) (x : Nibble) (b : Byte) (k : Nat) :
    (s.writeFlagged f x b).pressed k = s.pressed k := rfl

/-! ### `State.setKey` -/

@[simp] theorem State.setKey_mem (s : State) (k : Nibble) (b : Byte) : (s.setKey k b).mem = s.mem := rfl
@[simp] theorem State.setKey_v (s : State) (k : Nibble) (b : Byte) : (s.setKey k b).v = s.v := rfl
@[simp] theorem State.setKey_i (s : State) (k : Nibble) (b : Byte) : (s.setKey k b).i = s.i := rfl
@[simp] theorem State.setKey_pc (s : State) (k : Nibble) (b : Byte) : (s.setKey k b).pc = s.pc := rfl
@[simp] theorem State.setKey_stack (s : State) (k : Nibble) (b : Byte) : (s.setKey k b).stack = s.stack := rfl
@[simp] theorem State.setKey_sp (s : State) (k : Nibble) (b : Byte) : (s.setKey k b).sp = s.sp := rfl
@[simp] theorem State.setKey_gfx (s : State) (k : Nibble) (b : Byte) : (s.setKey k b).gfx = s.gfx := rfl
@[simp] theorem State.setKey_dt (s : State) (k : Nibble) (b : Byte) : (s.setKey k b).dt = s.dt := rfl
@[simp] theorem State.setKey_st (s : State) (k : Nibble) (b : Byte) : (s.setKey k b).st = s.st := rfl
@[simp] theorem State.setKey_keypad (s : State) (k : Nibble) (b : Byte) : (s.setKey k b).keypad = s.keypad.set k.toNat b k.isLt := rfl
@[simp] theorem State.setKey_fault (s : State) (k : Nibble) (b : Byte) : (s.setKey k b).fault = s.fault := rfl
@[simp] theorem State.setKey_rndIn (s : State) (k : Nibble) (b : Byte) : (s.setKey k b).rndIn = s.rndIn := rfl
@[simp] theorem State.setKey_draws (s : State) (k : Nibble) (b : Byte) : (s.setKey k b).draws = s.draws := rfl
@[simp] theorem State.setKey_getV (s : State) (k : Nibble) (b : Byte) (j : Nibble) :
    (s.setKey k b).getV j = s.getV j := rfl
@[simp] theorem State.setKey_readByte (s : State) (k : Nibble) (b : Byte) (c : Nat) :
    (s.setKey k b).readByte c = s.readByte c := rfl
@[simp] theorem State.setKey_pixel (s : State) (k : Nibble) (b : Byte) (q : Nat) :
    (s.setKey k b).pixel q = s.pixel q := rfl

/-! ### `State.supplyRnd` -/

@[simp] theorem State.supplyRnd_mem (s : State) (b : Byte) : (s.supplyRnd b).mem = s.mem := rfl
@[simp] theorem State.supplyRnd_v (s : State) (b : Byte) : (s.supplyRnd b).v = s.v := rfl
@[simp] theorem State.supplyRnd_i (s : State) (b : Byte) : (s.supplyRnd b).i = s.i := rfl
@[simp] theorem State.supplyRnd_pc (s : State) (b : Byte) : (s.supplyRnd b).pc = s.pc := rfl
@[simp] theorem State.supplyRnd_stack (s : State) (b : Byte) : (s.supplyRnd b).stack = s.stack := rfl
@[simp] theorem State.supplyRnd_sp (s : State) (b : Byte) : (s.supplyRnd b).sp = s.sp := rfl
@[simp] theorem State.supplyRnd_gfx (s : State) (b : Byte) : (s.supplyRnd b).gfx = s.gfx := rfl
@[simp] theorem State.supplyRnd_dt (s : State) (b : Byte) : (s.supplyRnd b).dt = s.dt := rfl
@[simp] theorem State.supplyRnd_st (s : State) (b : Byte) : (s.supplyRnd b).st = s.st := rfl
@[simp] theorem State.supplyRnd_keypad (s : State) (b : Byte) : (s.supplyRnd b).keypad = s.keypad := rfl
@[simp] theorem State.supplyRnd_fault (s : State) (b : Byte) : (s.supplyRnd b).fault = s.fault := rfl
@[simp] theorem State.supplyRnd_rndIn (s : State) (b : Byte) : (s.supplyRnd b).rndIn = b :: s.rndIn := rfl
@[simp] theorem State.supplyRnd_draws (s : State) (b : Byte) : (s.supplyRnd b).draws = s.draws := rfl
@[simp] theorem State.supplyRnd_getV (s : State) (b : Byte) (j : Nibble) :
    (s.supplyRnd b).getV j = s.getV j := rfl
@[simp] theorem State.supplyRnd_readByte (s : State) (b : Byte) (c : Nat) :
    (s.supplyRnd b).readByte c = s.readByte c := rfl
@[simp] theorem State.supplyRnd_pixel (s : State) (b : Byte) (k : Nat) :
    (s.supplyRnd b).pixel k = s.pixel k := rfl
@[simp] theorem State.supplyRnd_pressed (s : State) (b : Byte) (k : Nat) :
    (s.supplyRnd b).pressed k = s.pressed k := rfl

end Sys2Proof.Machine
end

