-- ==== Sys2Proof/Laws/Memory.lean ====
section
/-! SUPPORT. Memory: what a read gives after a store, and the canonical form, which every memory
operation keeps. The read laws hold for any list, canonical or not. -/

namespace Sys2Proof.Machine

theorem Memory.lookup_erase (m : Memory) (a c : Nat) :
    (m.erase a).lookup c = if c = a then unlistedByte a else m.lookup c := by
  induction m with
  | nil => by_cases h : c = a <;> simp [Memory.erase, Memory.lookup, h]
  | cons e rest ih =>
    obtain ⟨b, w⟩ := e
    simp only [Memory.erase] at ih ⊢
    by_cases hb : b = a
    · subst hb
      rw [List.filter_cons_of_neg (by simp), ih]
      by_cases hc : c = b
      · simp [hc]
      · simp [hc, Memory.lookup, Ne.symm hc]
    · rw [List.filter_cons_of_pos (by simpa using hb)]
      by_cases hc : b = c
      · subst hc; simp [Memory.lookup, hb]
      · simp [Memory.lookup, hc, ih]

theorem Memory.lookup_insert (m : Memory) (a c : Nat) (b : Byte) (absent : ∀ e ∈ m, e.1 ≠ a) :
    (m.insert a b).lookup c = if c = a then b else m.lookup c := by
  induction m with
  | nil =>
    by_cases h : c = a
    · simp [Memory.insert, Memory.lookup, h]
    · simp [Memory.insert, Memory.lookup, h, Ne.symm h]
  | cons e rest ih =>
    obtain ⟨d, w⟩ := e
    have hd : d ≠ a := absent _ List.mem_cons_self
    have ih := ih (fun e he => absent e (List.mem_cons_of_mem _ he))
    by_cases hlt : a < d
    · by_cases hc : c = a
      · simp [Memory.insert, hlt, Memory.lookup, hc]
      · simp [Memory.insert, hlt, Memory.lookup, hc, Ne.symm hc]
    · by_cases hc : d = c
      · subst hc; simp [Memory.insert, hlt, Memory.lookup, hd]
      · simp [Memory.insert, hlt, Memory.lookup, hc, ih]

theorem Memory.not_mem_erase (m : Memory) (a : Nat) : ∀ e ∈ m.erase a, e.1 ≠ a := by
  intro e he
  simpa using (List.mem_filter.mp he).2

/-- A store changes what one address reads as, and no other. -/
theorem Memory.lookup_store (m : Memory) (a c : Nat) (b : Byte) :
    (m.store a b).lookup c = if c = a then b else m.lookup c := by
  unfold Memory.store
  split
  · next h => rw [Memory.lookup_erase, h]
  · rw [Memory.lookup_insert _ _ _ _ (Memory.not_mem_erase m a), Memory.lookup_erase]
    split <;> rfl

theorem Memory.wf_erase {m : Memory} (a : Nat) (h : m.wf) : (m.erase a).wf :=
  ⟨h.1.sublist List.filter_sublist, fun c hc => h.2 c (List.mem_filter.mp hc).1⟩

theorem Memory.mem_insert (m : Memory) (a : Nat) (b : Byte) (e : Host.Cell) :
    e ∈ m.insert a b ↔ e = (a, b) ∨ e ∈ m := by
  induction m with
  | nil => simp [Memory.insert]
  | cons d rest ih =>
    unfold Memory.insert
    split
    · simp
    · simp [ih]; tauto

theorem Memory.wf_insert {m : Memory} {a : Nat} {b : Byte} (h : m.wf) (ha : a < Config.memSize)
    (hb : b ≠ unlistedByte a) (absent : ∀ e ∈ m, e.1 ≠ a) : (m.insert a b).wf := by
  refine ⟨?_, ?_⟩
  · have hs := h.1
    clear h
    induction m with
    | nil => simp [Memory.insert]
    | cons d rest ih =>
      have hd : d.1 ≠ a := absent _ List.mem_cons_self
      rw [List.pairwise_cons] at hs
      unfold Memory.insert
      split
      · next hlt =>
        refine List.pairwise_cons.mpr ⟨?_, List.pairwise_cons.mpr hs⟩
        intro e he
        rcases List.mem_cons.mp he with rfl | he
        · exact hlt
        · exact Nat.lt_trans hlt (hs.1 e he)
      · next hlt =>
        refine List.pairwise_cons.mpr
          ⟨?_, ih (fun e he => absent e (List.mem_cons_of_mem _ he)) hs.2⟩
        intro e he
        rcases (Memory.mem_insert rest a b e).mp he with rfl | he
        · change d.1 < a
          omega
        · exact hs.1 e he
  · intro e he
    rcases (Memory.mem_insert m a b e).mp he with rfl | he
    · exact ⟨ha, hb⟩
    · exact h.2 e he

/-- A store inside the address space keeps the canonical form. -/
theorem Memory.wf_store {m : Memory} {a : Nat} (b : Byte) (h : m.wf) (ha : a < Config.memSize) :
    (m.store a b).wf := by
  unfold Memory.store
  split
  · exact Memory.wf_erase a h
  · next hb => exact Memory.wf_insert (Memory.wf_erase a h) ha hb (Memory.not_mem_erase m a)

theorem reset_mem_wf : State.reset.mem.wf := by decide

/-- What a byte write does (20_memory.md R41, R42). -/
theorem State.readByte_writeByte (s : State) (a c : Nat) (b : Byte) :
    (s.writeByte a b).readByte c = if c % 4096 = a % 4096 then b else s.readByte c :=
  Memory.lookup_store _ _ _ _

theorem State.writeByte_wf {s : State} (a : Nat) (b : Byte) (h : s.mem.wf) :
    (s.writeByte a b).mem.wf :=
  Memory.wf_store b h (Nat.mod_lt _ (by decide))

theorem State.writeBytes_wf {s : State} (a : Nat) (bs : List Byte) (h : s.mem.wf) :
    (s.writeBytes a bs).mem.wf := by
  induction bs generalizing s a with
  | nil => exact h
  | cons b rest ih => exact ih (a + 1) (State.writeByte_wf a b h)

theorem State.loadProgram_wf {s : State} (bs : List Byte) (h : s.mem.wf) :
    (s.loadProgram bs).mem.wf := State.writeBytes_wf _ bs h

theorem State.placeWord_wf {s : State} (w : Word) (h : s.mem.wf) : (s.placeWord w).mem.wf :=
  State.writeBytes_wf _ _ h

/-- A run of byte writes leaves every address outside it alone. -/
theorem State.readByte_writeBytes_outside (s : State) (a c : Nat) (bs : List Byte)
    (outside : ∀ k < bs.length, c % 4096 ≠ (a + k) % 4096) :
    (s.writeBytes a bs).readByte c = s.readByte c := by
  induction bs generalizing s a with
  | nil => rfl
  | cons b rest ih =>
    rw [State.writeBytes, ih]
    · have first := outside 0 (by simp)
      rw [State.readByte_writeByte, if_neg (by simpa using first)]
    · intro k hk
      have := outside (k + 1) (by simpa using hk)
      rwa [show a + 1 + k = a + (k + 1) by omega]

/-- A run of at most 4096 byte writes puts its `k`-th byte at `a + k`, reduced mod 4096. -/
theorem State.readByte_writeBytes_inside (s : State) (a k : Nat) (bs : List Byte)
    (fits : bs.length ≤ 4096) (hk : k < bs.length) :
    (s.writeBytes a bs).readByte (a + k) = bs[k] := by
  induction bs generalizing s a k with
  | nil => simp at hk
  | cons b rest ih =>
    simp only [List.length_cons] at fits hk
    cases k with
    | zero =>
      rw [State.writeBytes, State.readByte_writeBytes_outside, State.readByte_writeByte]
      · simp
      · intro j hj; omega
    | succ k =>
      rw [State.writeBytes, show a + (k + 1) = a + 1 + k by omega,
        ih _ _ _ (by omega) (by omega)]
      simp

/-- A run of byte writes changes `mem` only. -/
theorem State.writeBytes_eq (s : State) (a : Nat) (bs : List Byte) :
    s.writeBytes a bs = { s with mem := (s.writeBytes a bs).mem } := by
  induction bs generalizing s a with
  | nil => rfl
  | cons b rest ih => rw [State.writeBytes, ih]; rfl

/-- Reads are reduced mod 4096. -/
theorem State.readByte_mod (s : State) (a : Nat) : s.readByte (a % 4096) = s.readByte a := by
  simp [State.readByte, Config.memSize]

end Sys2Proof.Machine
end

