-- ==== Sys2Proof/Laws/PerInstr.lean ====
section
/-! SUPPORT. One statement per instruction, over its syntax: the word the encoder gives matches the
mask and the value of its own row of the opcode map (30_encoding.md R64), whatever its operands.
`NoOp` has no row of its own: its word matches none of the 35 rows. -/

namespace Sys2Proof.Laws

/-- The mask and the value that 30_encoding.md R64 gives the instruction's row. -/
def FixedBits.row : Instr → Word × Word
  | .cls => (0xFFFF#16, 0x00E0#16)
  | .ret => (0xFFFF#16, 0x00EE#16)
  | .sys _ => (0xF000#16, 0x0000#16)
  | .jump _ => (0xF000#16, 0x1000#16)
  | .call _ => (0xF000#16, 0x2000#16)
  | .loadI _ => (0xF000#16, 0xA000#16)
  | .jumpV0 _ => (0xF000#16, 0xB000#16)
  | .skipEqByte _ _ => (0xF000#16, 0x3000#16)
  | .skipNeByte _ _ => (0xF000#16, 0x4000#16)
  | .loadByte _ _ => (0xF000#16, 0x6000#16)
  | .addByte _ _ => (0xF000#16, 0x7000#16)
  | .rand _ _ => (0xF000#16, 0xC000#16)
  | .draw _ _ _ => (0xF000#16, 0xD000#16)
  | .skipEqReg _ _ => (0xF00F#16, 0x5000#16)
  | .loadReg _ _ => (0xF00F#16, 0x8000#16)
  | .orReg _ _ => (0xF00F#16, 0x8001#16)
  | .andReg _ _ => (0xF00F#16, 0x8002#16)
  | .xorReg _ _ => (0xF00F#16, 0x8003#16)
  | .addReg _ _ => (0xF00F#16, 0x8004#16)
  | .subReg _ _ => (0xF00F#16, 0x8005#16)
  | .shrReg _ _ => (0xF00F#16, 0x8006#16)
  | .subnReg _ _ => (0xF00F#16, 0x8007#16)
  | .shlReg _ _ => (0xF00F#16, 0x800E#16)
  | .skipNeReg _ _ => (0xF00F#16, 0x9000#16)
  | .skipIfKey _ => (0xF0FF#16, 0xE09E#16)
  | .skipIfNotKey _ => (0xF0FF#16, 0xE0A1#16)
  | .loadDT _ => (0xF0FF#16, 0xF007#16)
  | .waitKey _ => (0xF0FF#16, 0xF00A#16)
  | .setDT _ => (0xF0FF#16, 0xF015#16)
  | .setST _ => (0xF0FF#16, 0xF018#16)
  | .addI _ => (0xF0FF#16, 0xF01E#16)
  | .loadSprite _ => (0xF0FF#16, 0xF029#16)
  | .bcd _ => (0xF0FF#16, 0xF033#16)
  | .dumpRegs _ => (0xF0FF#16, 0xF055#16)
  | .loadRegs _ => (0xF0FF#16, 0xF065#16)
  | .noOp => (0x0000#16, 0x0000#16)

/-- The encoded word carries the fixed bits of the instruction's row, and that row is in the opcode
map exactly when the instruction is not `NoOp`. -/
def FixedBits.Statement (i : Instr) : Prop :=
  encode i &&& (FixedBits.row i).1 = (FixedBits.row i).2 ∧
    ((opcodeTable.map fun r => (r.mask, r.value)).contains (FixedBits.row i) = true ↔ i ≠ .noOp)

theorem FixedBits.cls : FixedBits.Statement .cls := by
  unfold FixedBits.Statement
  decide

theorem FixedBits.ret : FixedBits.Statement .ret := by
  unfold FixedBits.Statement
  decide

theorem FixedBits.noOp : FixedBits.Statement .noOp := by
  unfold FixedBits.Statement
  decide

theorem FixedBits.sys (nnn : Addr12) : FixedBits.Statement (.sys nnn) := by
  refine ⟨?_, by simp [FixedBits.row, opcodeTable, rowNnn, rowXkk, rowXy, rowX]⟩
  simp only [encode, FixedBits.row, and_maskClass, fieldClass_wordNnn]
  decide

theorem FixedBits.jump (nnn : Addr12) : FixedBits.Statement (.jump nnn) := by
  refine ⟨?_, by simp [FixedBits.row, opcodeTable, rowNnn, rowXkk, rowXy, rowX]⟩
  simp only [encode, FixedBits.row, and_maskClass, fieldClass_wordNnn]
  decide

theorem FixedBits.call (nnn : Addr12) : FixedBits.Statement (.call nnn) := by
  refine ⟨?_, by simp [FixedBits.row, opcodeTable, rowNnn, rowXkk, rowXy, rowX]⟩
  simp only [encode, FixedBits.row, and_maskClass, fieldClass_wordNnn]
  decide

theorem FixedBits.loadI (nnn : Addr12) : FixedBits.Statement (.loadI nnn) := by
  refine ⟨?_, by simp [FixedBits.row, opcodeTable, rowNnn, rowXkk, rowXy, rowX]⟩
  simp only [encode, FixedBits.row, and_maskClass, fieldClass_wordNnn]
  decide

theorem FixedBits.jumpV0 (nnn : Addr12) : FixedBits.Statement (.jumpV0 nnn) := by
  refine ⟨?_, by simp [FixedBits.row, opcodeTable, rowNnn, rowXkk, rowXy, rowX]⟩
  simp only [encode, FixedBits.row, and_maskClass, fieldClass_wordNnn]
  decide

theorem FixedBits.skipEqByte (x : Nibble) (kk : Byte) : FixedBits.Statement (.skipEqByte x kk) := by
  refine ⟨?_, by simp [FixedBits.row, opcodeTable, rowNnn, rowXkk, rowXy, rowX]⟩
  simp only [encode, FixedBits.row, and_maskClass, fieldClass_wordXkk]
  decide

theorem FixedBits.skipNeByte (x : Nibble) (kk : Byte) : FixedBits.Statement (.skipNeByte x kk) := by
  refine ⟨?_, by simp [FixedBits.row, opcodeTable, rowNnn, rowXkk, rowXy, rowX]⟩
  simp only [encode, FixedBits.row, and_maskClass, fieldClass_wordXkk]
  decide

theorem FixedBits.loadByte (x : Nibble) (kk : Byte) : FixedBits.Statement (.loadByte x kk) := by
  refine ⟨?_, by simp [FixedBits.row, opcodeTable, rowNnn, rowXkk, rowXy, rowX]⟩
  simp only [encode, FixedBits.row, and_maskClass, fieldClass_wordXkk]
  decide

theorem FixedBits.addByte (x : Nibble) (kk : Byte) : FixedBits.Statement (.addByte x kk) := by
  refine ⟨?_, by simp [FixedBits.row, opcodeTable, rowNnn, rowXkk, rowXy, rowX]⟩
  simp only [encode, FixedBits.row, and_maskClass, fieldClass_wordXkk]
  decide

theorem FixedBits.rand (x : Nibble) (kk : Byte) : FixedBits.Statement (.rand x kk) := by
  refine ⟨?_, by simp [FixedBits.row, opcodeTable, rowNnn, rowXkk, rowXy, rowX]⟩
  simp only [encode, FixedBits.row, and_maskClass, fieldClass_wordXkk]
  decide

theorem FixedBits.draw (x y n : Nibble) : FixedBits.Statement (.draw x y n) := by
  refine ⟨?_, by simp [FixedBits.row, opcodeTable, rowNnn, rowXkk, rowXy, rowX]⟩
  simp only [encode, FixedBits.row, and_maskClass, fieldClass_wordXyn]
  decide

theorem FixedBits.skipEqReg (x y : Nibble) : FixedBits.Statement (.skipEqReg x y) := by
  refine ⟨?_, by simp [FixedBits.row, opcodeTable, rowNnn, rowXkk, rowXy, rowX]⟩
  simp only [encode, FixedBits.row, and_maskNibble, fieldClass_wordXyn, fieldN_wordXyn]
  decide

theorem FixedBits.loadReg (x y : Nibble) : FixedBits.Statement (.loadReg x y) := by
  refine ⟨?_, by simp [FixedBits.row, opcodeTable, rowNnn, rowXkk, rowXy, rowX]⟩
  simp only [encode, FixedBits.row, and_maskNibble, fieldClass_wordXyn, fieldN_wordXyn]
  decide

theorem FixedBits.orReg (x y : Nibble) : FixedBits.Statement (.orReg x y) := by
  refine ⟨?_, by simp [FixedBits.row, opcodeTable, rowNnn, rowXkk, rowXy, rowX]⟩
  simp only [encode, FixedBits.row, and_maskNibble, fieldClass_wordXyn, fieldN_wordXyn]
  decide

theorem FixedBits.andReg (x y : Nibble) : FixedBits.Statement (.andReg x y) := by
  refine ⟨?_, by simp [FixedBits.row, opcodeTable, rowNnn, rowXkk, rowXy, rowX]⟩
  simp only [encode, FixedBits.row, and_maskNibble, fieldClass_wordXyn, fieldN_wordXyn]
  decide

theorem FixedBits.xorReg (x y : Nibble) : FixedBits.Statement (.xorReg x y) := by
  refine ⟨?_, by simp [FixedBits.row, opcodeTable, rowNnn, rowXkk, rowXy, rowX]⟩
  simp only [encode, FixedBits.row, and_maskNibble, fieldClass_wordXyn, fieldN_wordXyn]
  decide

theorem FixedBits.addReg (x y : Nibble) : FixedBits.Statement (.addReg x y) := by
  refine ⟨?_, by simp [FixedBits.row, opcodeTable, rowNnn, rowXkk, rowXy, rowX]⟩
  simp only [encode, FixedBits.row, and_maskNibble, fieldClass_wordXyn, fieldN_wordXyn]
  decide

theorem FixedBits.subReg (x y : Nibble) : FixedBits.Statement (.subReg x y) := by
  refine ⟨?_, by simp [FixedBits.row, opcodeTable, rowNnn, rowXkk, rowXy, rowX]⟩
  simp only [encode, FixedBits.row, and_maskNibble, fieldClass_wordXyn, fieldN_wordXyn]
  decide

theorem FixedBits.shrReg (x y : Nibble) : FixedBits.Statement (.shrReg x y) := by
  refine ⟨?_, by simp [FixedBits.row, opcodeTable, rowNnn, rowXkk, rowXy, rowX]⟩
  simp only [encode, FixedBits.row, and_maskNibble, fieldClass_wordXyn, fieldN_wordXyn]
  decide

theorem FixedBits.subnReg (x y : Nibble) : FixedBits.Statement (.subnReg x y) := by
  refine ⟨?_, by simp [FixedBits.row, opcodeTable, rowNnn, rowXkk, rowXy, rowX]⟩
  simp only [encode, FixedBits.row, and_maskNibble, fieldClass_wordXyn, fieldN_wordXyn]
  decide

theorem FixedBits.shlReg (x y : Nibble) : FixedBits.Statement (.shlReg x y) := by
  refine ⟨?_, by simp [FixedBits.row, opcodeTable, rowNnn, rowXkk, rowXy, rowX]⟩
  simp only [encode, FixedBits.row, and_maskNibble, fieldClass_wordXyn, fieldN_wordXyn]
  decide

theorem FixedBits.skipNeReg (x y : Nibble) : FixedBits.Statement (.skipNeReg x y) := by
  refine ⟨?_, by simp [FixedBits.row, opcodeTable, rowNnn, rowXkk, rowXy, rowX]⟩
  simp only [encode, FixedBits.row, and_maskNibble, fieldClass_wordXyn, fieldN_wordXyn]
  decide

theorem FixedBits.skipIfKey (x : Nibble) : FixedBits.Statement (.skipIfKey x) := by
  refine ⟨?_, by simp [FixedBits.row, opcodeTable, rowNnn, rowXkk, rowXy, rowX]⟩
  simp only [encode, FixedBits.row, and_maskByte, fieldClass_wordXkk, fieldKk_wordXkk]
  decide

theorem FixedBits.skipIfNotKey (x : Nibble) : FixedBits.Statement (.skipIfNotKey x) := by
  refine ⟨?_, by simp [FixedBits.row, opcodeTable, rowNnn, rowXkk, rowXy, rowX]⟩
  simp only [encode, FixedBits.row, and_maskByte, fieldClass_wordXkk, fieldKk_wordXkk]
  decide

theorem FixedBits.loadDT (x : Nibble) : FixedBits.Statement (.loadDT x) := by
  refine ⟨?_, by simp [FixedBits.row, opcodeTable, rowNnn, rowXkk, rowXy, rowX]⟩
  simp only [encode, FixedBits.row, and_maskByte, fieldClass_wordXkk, fieldKk_wordXkk]
  decide

theorem FixedBits.waitKey (x : Nibble) : FixedBits.Statement (.waitKey x) := by
  refine ⟨?_, by simp [FixedBits.row, opcodeTable, rowNnn, rowXkk, rowXy, rowX]⟩
  simp only [encode, FixedBits.row, and_maskByte, fieldClass_wordXkk, fieldKk_wordXkk]
  decide

theorem FixedBits.setDT (x : Nibble) : FixedBits.Statement (.setDT x) := by
  refine ⟨?_, by simp [FixedBits.row, opcodeTable, rowNnn, rowXkk, rowXy, rowX]⟩
  simp only [encode, FixedBits.row, and_maskByte, fieldClass_wordXkk, fieldKk_wordXkk]
  decide

theorem FixedBits.setST (x : Nibble) : FixedBits.Statement (.setST x) := by
  refine ⟨?_, by simp [FixedBits.row, opcodeTable, rowNnn, rowXkk, rowXy, rowX]⟩
  simp only [encode, FixedBits.row, and_maskByte, fieldClass_wordXkk, fieldKk_wordXkk]
  decide

theorem FixedBits.addI (x : Nibble) : FixedBits.Statement (.addI x) := by
  refine ⟨?_, by simp [FixedBits.row, opcodeTable, rowNnn, rowXkk, rowXy, rowX]⟩
  simp only [encode, FixedBits.row, and_maskByte, fieldClass_wordXkk, fieldKk_wordXkk]
  decide

theorem FixedBits.loadSprite (x : Nibble) : FixedBits.Statement (.loadSprite x) := by
  refine ⟨?_, by simp [FixedBits.row, opcodeTable, rowNnn, rowXkk, rowXy, rowX]⟩
  simp only [encode, FixedBits.row, and_maskByte, fieldClass_wordXkk, fieldKk_wordXkk]
  decide

theorem FixedBits.bcd (x : Nibble) : FixedBits.Statement (.bcd x) := by
  refine ⟨?_, by simp [FixedBits.row, opcodeTable, rowNnn, rowXkk, rowXy, rowX]⟩
  simp only [encode, FixedBits.row, and_maskByte, fieldClass_wordXkk, fieldKk_wordXkk]
  decide

theorem FixedBits.dumpRegs (x : Nibble) : FixedBits.Statement (.dumpRegs x) := by
  refine ⟨?_, by simp [FixedBits.row, opcodeTable, rowNnn, rowXkk, rowXy, rowX]⟩
  simp only [encode, FixedBits.row, and_maskByte, fieldClass_wordXkk, fieldKk_wordXkk]
  decide

theorem FixedBits.loadRegs (x : Nibble) : FixedBits.Statement (.loadRegs x) := by
  refine ⟨?_, by simp [FixedBits.row, opcodeTable, rowNnn, rowXkk, rowXy, rowX]⟩
  simp only [encode, FixedBits.row, and_maskByte, fieldClass_wordXkk, fieldKk_wordXkk]
  decide

end Sys2Proof.Laws
end

