-- ==== Sys2Proof/Laws/Registers.lean ====
section
/-! SUPPORT. What the shared operations over registers, stack, framebuffer and inputs do. -/

namespace Sys2Proof.Machine

/-- A register write is seen at its register and nowhere else. -/
theorem State.getV_setV (s : State) (x j : Nibble) (b : Byte) :
    (s.setV x b).getV j = if j = x then b else s.getV j := by
  by_cases h : j = x
  · subst h; simp [State.getV, State.setV]
  · have hne : x.toNat ≠ j.toNat := fun e => h (BitVec.eq_of_toNat_eq e.symm)
    simp [State.getV, State.setV, h, hne]

@[simp] theorem State.getV_setV_self (s : State) (x : Nibble) (b : Byte) :
    (s.setV x b).getV x = b := by simp [State.getV_setV]

/-- Flag first, result second (00_scope.md R6). -/
theorem State.getV_writeFlagged (s : State) (f : Bool) (x j : Nibble) (b : Byte) :
    (s.writeFlagged f x b).getV j =
      if j = x then b else if j = vf then flagByte f else s.getV j := by
  simp [State.writeFlagged, State.getV_setV]

/-- A list of register writes changes `v` only. -/
theorem State.setRegs_eq (s : State) (k : Nat) (bs : List Byte) :
    s.setRegs k bs = { s with v := (s.setRegs k bs).v } := by
  induction bs generalizing s k with
  | nil => rfl
  | cons b rest ih => rw [State.setRegs, ih]; rfl

/-- A list of register writes that fits puts its `j`-th byte into register `k + j`. -/
theorem State.getV_setRegs (s : State) (k : Nat) (bs : List Byte) (fits : k + bs.length ≤ 16)
    (j : Nibble) :
    (s.setRegs k bs).getV j =
      if h : k ≤ j.toNat ∧ j.toNat < k + bs.length then bs[j.toNat - k] else s.getV j := by
  induction bs generalizing s k with
  | nil => simp [State.setRegs]
  | cons b rest ih =>
    simp only [List.length_cons] at fits ⊢
    rw [State.setRegs, ih _ _ (by omega)]
    by_cases hk : j.toNat = k
    · have hj : j = regIndex k := by
        apply BitVec.eq_of_toNat_eq
        simp [regIndex]; omega
      rw [dif_neg (by omega), dif_pos (by omega), State.getV_setV, if_pos hj]
      simp [hk]
    · have hj : j ≠ regIndex k := by
        intro e
        apply hk
        rw [e]; simp [regIndex]; omega
      by_cases hin : k + 1 ≤ j.toNat ∧ j.toNat < k + 1 + rest.length
      · rw [dif_pos hin, dif_pos (by omega), List.getElem_cons]
        rw [dif_neg (by omega)]
        congr 1
      · rw [dif_neg hin, dif_neg (by omega), State.getV_setV, if_neg hj]

@[simp] theorem State.bytesAtI_length (s : State) (n : Nat) : (s.bytesAtI n).length = n := by
  simp [State.bytesAtI]

@[simp] theorem State.bytesAtI_get (s : State) (n k : Nat) (h : k < (s.bytesAtI n).length) :
    (s.bytesAtI n)[k] = s.readByte (s.i.toNat + k) := by
  simp [State.bytesAtI, State.effAddr]

@[simp] theorem State.regsUpTo_length (s : State) (x : Nibble) :
    (s.regsUpTo x).length = x.toNat + 1 := by simp [State.regsUpTo]

@[simp] theorem State.regsUpTo_get (s : State) (x : Nibble) (k : Nat)
    (h : k < (s.regsUpTo x).length) : (s.regsUpTo x)[k] = s.getV (regIndex k) := by
  simp [State.regsUpTo]

@[simp] theorem regIndex_toNat (x : Nibble) : regIndex x.toNat = x := by simp [regIndex]

/-- All that a push can do (41_control_flow.md R93). -/
theorem State.push_cases (s : State) (w : Word) :
    (s.sp.val = 16 ∧ s.push w = none) ∨
      ∃ h : s.sp.val < 16, ∃ t, s.push w = some t ∧
        t = { s with stack := s.stack.set s.sp.val w h, sp := ⟨s.sp.val + 1, by omega⟩ } := by
  unfold State.push
  split
  · next h => exact .inr ⟨h, _, rfl, rfl⟩
  · next h => exact .inl ⟨by have := s.sp.isLt; omega, rfl⟩

/-- All that a pop can do (41_control_flow.md R94). -/
theorem State.pop_cases (s : State) :
    (s.sp.val = 0 ∧ s.pop = none) ∨
      ∃ h : s.sp.val - 1 < 16, 0 < s.sp.val ∧
        s.pop = some (s.stack[s.sp.val - 1], { s with sp := ⟨s.sp.val - 1, by omega⟩ }) := by
  unfold State.pop
  split
  · next h => exact .inr ⟨by have := s.sp.isLt; omega, h, rfl⟩
  · next h => exact .inl ⟨by omega, rfl⟩

/-- A flip changes its own cell and no other (44_display.md R131). -/
theorem State.pixel_flipPixel (s : State) (k j : Nat) (hk : k < 2048) :
    (s.flipPixel k).pixel j = if j = k then !s.pixel j else s.pixel j := by
  have hrow : k / 64 < 32 := by omega
  unfold State.flipPixel State.pixel
  rw [dif_pos hrow]
  by_cases hj : j / 64 < 32
  · simp only [hj, dif_pos]
    by_cases hr : k / 64 = j / 64
    · have hb : k % 64 < 64 := Nat.mod_lt _ (by decide)
      by_cases he : j = k
      · subst he; simp [hb]
      · have : k % 64 ≠ j % 64 := by omega
        simp [hr, he, BitVec.getLsbD_twoPow, this]
    · have he : j ≠ k := by rintro rfl; exact hr rfl
      simp [hr, he]
  · have he : j ≠ k := by omega
    simp [hj, he]

/-- A flip changes `gfx` only. -/
theorem State.flipPixel_eq (s : State) (k : Nat) :
    s.flipPixel k = { s with gfx := (s.flipPixel k).gfx } := by
  unfold State.flipPixel
  split <;> rfl

@[simp] theorem State.pixel_clearGfx (s : State) (k : Nat) : s.clearGfx.pixel k = false := by
  unfold State.clearGfx State.pixel
  split <;> simp

theorem spriteCell_lt (vx vy row bit : Nat) : spriteCell vx vy row bit < 2048 := by
  unfold spriteCell
  omega

/-- Going back after the advance of a tick is where the tick began (40_tick_cycle.md R84). -/
@[simp] theorem State.advancePc_takeFault (s : State) (f : FaultLatch) :
    s.advancePc.takeFault f = { s with fault := f } := by
  have h : s.pc + 2#16 - 2#16 = s.pc := by simp
  simp [State.takeFault, State.rewindPc, State.advancePc, State.setPc, h]

@[simp] theorem State.advancePc_rewindPc (s : State) : s.advancePc.rewindPc = s := by
  have h : s.pc + 2#16 - 2#16 = s.pc := by simp
  simp [State.rewindPc, State.advancePc, State.setPc, h]

/-- All that a skip can do. -/
theorem State.skipIf_pc (s : State) (c : Bool) :
    s.skipIf c = s.setPc (if c then s.pc + 2#16 else s.pc) := by
  cases c <;> rfl

/-- All that the count of a free `rnd` byte can do (log entry 1). -/
theorem State.countDraw_cases (s : State) :
    (∃ b rest, s.rndIn = b :: rest ∧ s.rnd = b ∧ s.countDraw = s) ∨
      (s.rndIn = [] ∧ s.rnd = Config.rnd s.draws ∧
        s.countDraw = { s with draws := s.draws + 1 }) := by
  unfold State.rnd State.countDraw
  cases h : s.rndIn with
  | nil => exact .inr ⟨rfl, rfl, rfl⟩
  | cons b rest => exact .inl ⟨b, rest, rfl, rfl, rfl⟩

/-- All that the scan of the keypad can find (45_keypad_timers.md R142). -/
theorem State.firstKey_cases (s : State) :
    (s.firstKey = none ∧ ∀ k < 16, s.pressed k = false) ∨
      ∃ k, s.firstKey = some k ∧ k < 16 ∧ s.pressed k = true ∧ ∀ j < k, s.pressed j = false := by
  unfold State.firstKey
  cases h : (List.range 16).find? s.pressed with
  | none =>
    refine .inl ⟨rfl, fun k hk => ?_⟩
    simpa using List.find?_eq_none.mp h k (List.mem_range.mpr hk)
  | some k =>
    rw [List.find?_range_eq_some] at h
    obtain ⟨hp, hk, hmin⟩ := h
    exact .inr ⟨k, rfl, List.mem_range.mp hk, hp, fun j hj => by simpa using hmin j hj⟩

theorem countDown_toNat (b : Byte) : (countDown b).toNat = b.toNat - 1 := by
  unfold countDown
  split
  · next h => simp [h]
  · next h =>
    have : b.toNat ≠ 0 := fun e => h (BitVec.eq_of_toNat_eq (by simpa using e))
    rw [BitVec.toNat_sub]
    have := b.isLt
    simp
    omega

end Sys2Proof.Machine
end

