-- ==== Sys2Proof/Laws/Step.lean ====
section
/-! SUPPORT. All that a step can do (40_tick_cycle.md R80), said once. -/

namespace Sys2Proof.Machine

/-- A faulted core does nothing (R86). -/
theorem step_of_faulted {s : State} (h : s.fault ≠ .none) : step s = .next s := by
  unfold step tick
  split
  · next hf => exact absurd hf h
  · rfl
  · rfl

/-- A running core executes the fetched instruction on the advanced `pc` (R81 to R83). -/
theorem step_of_running {s : State} (h : s.fault = .none) :
    step s = finishOutcome (exec s.fetchInstr s.advancePc) := by
  unfold step tick
  rw [h]

theorem State.finishTick_of_running {s : State} (h : s.fault = .none) :
    s.finishTick = s.endTick := by
  unfold State.finishTick
  rw [h]

theorem State.finishTick_of_faulted {s : State} (h : s.fault ≠ .none) : s.finishTick = s := by
  unfold State.finishTick
  split
  · next hf => exact absurd hf h
  · rfl
  · rfl

/-- The end of a tick leaves the latch as the instruction left it. -/
@[simp] theorem State.finishTick_fault (s : State) : s.finishTick.fault = s.fault := by
  by_cases h : s.fault = .none
  · rw [State.finishTick_of_running h, State.endTick_fault]
  · rw [State.finishTick_of_faulted h]

/-- Everything a step that answers a next state can be: a tick of a faulted core (R86), a tick that
ends with the timers (R85), or a tick whose instruction raised a fault (R84). -/
theorem step_cases {s t : State} (h : step s = .next t) :
    (s.fault ≠ .none ∧ t = s) ∨
      ∃ u, s.fault = .none ∧ exec s.fetchInstr s.advancePc = .next u ∧
        ((u.fault = .none ∧ t = u.endTick) ∨ (u.fault ≠ .none ∧ t = u)) := by
  by_cases hf : s.fault = .none
  · rw [step_of_running hf] at h
    cases he : exec s.fetchInstr s.advancePc with
    | next u =>
      rw [he] at h
      obtain rfl : u.finishTick = t := by simpa [finishOutcome] using h
      refine .inr ⟨u, hf, rfl, ?_⟩
      by_cases hu : u.fault = .none
      · exact .inl ⟨hu, State.finishTick_of_running hu⟩
      · exact .inr ⟨hu, State.finishTick_of_faulted hu⟩
    | fault r => exact r.rec
    | refused r => rw [he] at h; simp [finishOutcome] at h
  · rw [step_of_faulted hf] at h
    exact .inl ⟨hf, by simpa using h.symm⟩

/-- A run of the core goes on with what its first step answers. -/
theorem run_of_next (M : Host.Core) (k : Nat) {x y : M.State} (h : M.step x = .next y) :
    M.run (k + 1) x = M.run k y := by
  rw [Host.Core.run, h]

theorem core_run_zero (s : State) : Host.Core.run core 0 s = .next s := rfl

theorem core_run_succ {s t : State} (k : Nat) (h : step s = .next t) :
    Host.Core.run core (k + 1) s = Host.Core.run core k t := run_of_next core k h

/-- What a tick does where memory holds a zero word: `Sys(0)`, so only `pc` and the end of the tick
(30_encoding.md R67). -/
theorem step_of_zero_word {s : State} (hf : s.fault = .none) (hw : s.fetchWord = 0#16) :
    step s = .next s.advancePc.endTick := by
  have sys : s.fetchInstr = .sys 0#12 := by
    unfold State.fetchInstr
    rw [hw]
    decide
  rw [step_of_running hf, sys]
  simp only [exec, execSys, finishOutcome]
  rw [State.finishTick_of_running (by exact hf)]

/-- Everything `Call` can do (41_control_flow.md R93). -/
theorem execCall_cases (nnn : Addr12) (s : State) :
    (s.sp.val = 16 ∧ execCall nnn s = .next (s.takeFault .stackOverflow)) ∨
      ∃ h : s.sp.val < 16, execCall nnn s =
        .next { s with stack := s.stack.set s.sp.val s.pc h, sp := ⟨s.sp.val + 1, by omega⟩,
                       pc := immAddr nnn } := by
  unfold execCall
  rcases State.push_cases s s.pc with ⟨h, hp⟩ | ⟨h, t, hp, rfl⟩
  · exact .inl ⟨h, by rw [hp]⟩
  · exact .inr ⟨h, by rw [hp]; rfl⟩

/-- Everything `Ret` can do (41_control_flow.md R94). -/
theorem execRet_cases (s : State) :
    (s.sp.val = 0 ∧ execRet s = .next (s.takeFault .stackUnderflow)) ∨
      ∃ h : s.sp.val - 1 < 16, 0 < s.sp.val ∧ execRet s =
        .next { s with sp := ⟨s.sp.val - 1, by omega⟩, pc := s.stack[s.sp.val - 1] } := by
  unfold execRet
  rcases State.pop_cases s with ⟨h, hp⟩ | ⟨h, hpos, hp⟩
  · exact .inl ⟨h, by rw [hp]⟩
  · exact .inr ⟨h, hpos, by rw [hp]; rfl⟩

/-- Everything `WaitKey` can do (45_keypad_timers.md R142). -/
theorem execWaitKey_cases (x : Nibble) (s : State) :
    ((∀ k < 16, s.pressed k = false) ∧ execWaitKey x s = .next s.rewindPc) ∨
      ∃ k, k < 16 ∧ s.pressed k = true ∧ (∀ j < k, s.pressed j = false) ∧
        execWaitKey x s = .next (s.setV x (BitVec.ofNat 8 k)) := by
  unfold execWaitKey
  rcases State.firstKey_cases s with ⟨h, hall⟩ | ⟨k, h, hk, hp, hmin⟩
  · exact .inl ⟨hall, by rw [h]⟩
  · exact .inr ⟨k, hk, hp, hmin, by rw [h]⟩

/-- A sprite bit changes `gfx` only (44_display.md R131). -/
theorem drawBit_eq (vx vy row bit : Nat) (b : Byte) (acc : State × Bool) :
    (drawBit vx vy row b acc bit).1 = { acc.1 with gfx := (drawBit vx vy row b acc bit).1.gfx } := by
  unfold drawBit
  split
  · exact State.flipPixel_eq _ _
  · rfl

/-- A sprite row changes `gfx` only. -/
theorem drawRow_eq (vx vy row : Nat) (acc : State × Bool) :
    (drawRow vx vy acc row).1 = { acc.1 with gfx := (drawRow vx vy acc row).1.gfx } := by
  unfold drawRow
  generalize acc.1.readByte (acc.1.effAddr row) = b
  generalize List.range 8 = bits
  induction bits generalizing acc with
  | nil => rfl
  | cons k rest ih =>
    rw [List.foldl_cons, ih (drawBit vx vy row b acc k), drawBit_eq]

/-- A sprite changes `gfx` only. -/
theorem drawSprite_eq (vx vy n : Nat) (s : State) :
    (drawSprite vx vy n s).1 = { s with gfx := (drawSprite vx vy n s).1.gfx } := by
  unfold drawSprite
  suffices h : ∀ (rows : List Nat) (acc : State × Bool),
      (rows.foldl (drawRow vx vy) acc).1 =
        { acc.1 with gfx := (rows.foldl (drawRow vx vy) acc).1.gfx } from h _ (s, false)
  intro rows
  induction rows with
  | nil => intro acc; rfl
  | cons k rest ih =>
    intro acc
    rw [List.foldl_cons, ih (drawRow vx vy acc k), drawRow_eq]

end Sys2Proof.Machine
end

