-- ==== Sys2Proof/Tests/Slice0.lean ====
section
/-! SUPPORT. Tests by evaluation. Every expected value is one of spec/95_test_vectors.md, whose
vector is named; a test is one tick on a small state. The last part gives, for every statement with
hypotheses, a state and operands that meet them. -/

namespace Sys2Proof.Tests

open Sys2Proof.Machine Sys2Proof.Safety

/-- Does one tick from `s`, with the word `w` placed where it fetches, end in a state with `p`? -/
def runs (s : State) (w : Nat) (p : State → Bool) : Bool :=
  match step (s.withFetchWord 16 w) with
  | .next t => p t
  | .fault _ => false
  | .refused _ => false

/-- The bytes of memory at consecutive addresses. -/
def bytesAt (s : State) (a n : Nat) : List Byte := (List.range n).map (fun k => s.readByte (a + k))

/-- The lit cells among the first `n` after `k`. -/
def litFrom (s : State) (k n : Nat) : List Nat := (List.range' k n).filter s.pixel

/-- Cells lit on a dark screen. -/
def lit (cells : List Nat) (s : State) : State := cells.foldl State.flipPixel s

/-- The state with `sp` at a depth of at most 16. -/
def atDepth (n : Nat) (s : State) : State := { s with sp := ⟨n % 17, Nat.mod_lt _ (by decide)⟩ }

/-- The reset state, to start from. -/
def start : State := State.reset

/-! ### Well-formedness -/

theorem test_sys_of_cls_word_is_ill_formed : ¬ (Instr.sys 0x0E0#12).WellFormed := by decide
theorem test_sys_of_ret_word_is_ill_formed : ¬ (Instr.sys 0x0EE#12).WellFormed := by decide
theorem test_neighbours_are_well_formed :
    (Instr.sys 0x0E1#12).WellFormed ∧ (Instr.sys 0x0EF#12).WellFormed ∧
      (Instr.sys 0x000#12).WellFormed ∧ (Instr.jump 0x0E0#12).WellFormed := by decide

/-! ### Decoding: S2 to S7 and V2, a word for every constructor -/

theorem test_decode_control_flow :
    decodeWord 0x00EE#16 = .ret ∧ decodeWord 0x0000#16 = .sys 0x000#12 ∧
    decodeWord 0x0FFF#16 = .sys 0xFFF#12 ∧ decodeWord 0x1ABC#16 = .jump 0xABC#12 ∧
    decodeWord 0x2ABC#16 = .call 0xABC#12 ∧ decodeWord 0xB123#16 = .jumpV0 0x123#12 ∧
    decodeWord 0x3A07#16 = .skipEqByte 10#4 0x07#8 ∧
    decodeWord 0x4A07#16 = .skipNeByte 10#4 0x07#8 ∧
    decodeWord 0x5AB0#16 = .skipEqReg 10#4 11#4 ∧
    decodeWord 0x9AB0#16 = .skipNeReg 10#4 11#4 := by decide

theorem test_decode_alu :
    decodeWord 0x6A07#16 = .loadByte 10#4 0x07#8 ∧ decodeWord 0x7FFF#16 = .addByte 15#4 0xFF#8 ∧
    decodeWord 0x8AB0#16 = .loadReg 10#4 11#4 ∧ decodeWord 0x8AB1#16 = .orReg 10#4 11#4 ∧
    decodeWord 0x8AB2#16 = .andReg 10#4 11#4 ∧ decodeWord 0x8AB3#16 = .xorReg 10#4 11#4 ∧
    decodeWord 0x8014#16 = .addReg 0#4 1#4 ∧ decodeWord 0x8AB5#16 = .subReg 10#4 11#4 ∧
    decodeWord 0x8AB6#16 = .shrReg 10#4 11#4 ∧ decodeWord 0x8AB7#16 = .subnReg 10#4 11#4 ∧
    decodeWord 0x8ABE#16 = .shlReg 10#4 11#4 ∧ decodeWord 0xC1F0#16 = .rand 1#4 0xF0#8 := by decide

theorem test_decode_index_memory_display :
    decodeWord 0xA123#16 = .loadI 0x123#12 ∧ decodeWord 0xF11E#16 = .addI 1#4 ∧
    decodeWord 0xF129#16 = .loadSprite 1#4 ∧ decodeWord 0xF133#16 = .bcd 1#4 ∧
    decodeWord 0xF155#16 = .dumpRegs 1#4 ∧ decodeWord 0xF165#16 = .loadRegs 1#4 ∧
    decodeWord 0x00E0#16 = .cls ∧ decodeWord 0xD123#16 = .draw 1#4 2#4 3#4 := by decide

theorem test_decode_keypad_timers :
    decodeWord 0xE19E#16 = .skipIfKey 1#4 ∧ decodeWord 0xE1A1#16 = .skipIfNotKey 1#4 ∧
    decodeWord 0xF107#16 = .loadDT 1#4 ∧ decodeWord 0xF10A#16 = .waitKey 1#4 ∧
    decodeWord 0xF115#16 = .setDT 1#4 ∧ decodeWord 0xF118#16 = .setST 1#4 := by decide

theorem test_decode_unmatched_words :
    [0x5AB1#16, 0x8AB8#16, 0x8ABD#16, 0x8ABF#16, 0x9ABF#16, 0xE19F#16, 0xE000#16, 0xF175#16,
      0xF100#16, 0xFFFF#16].all (fun w => decodeWord w == .noOp) = true := by decide

theorem test_encode_is_the_table_value :
    encode (.addReg 0#4 1#4) = 0x8014#16 ∧ encode (.draw 1#4 2#4 3#4) = 0xD123#16 ∧
    encode (.jump 0xABC#12) = 0x1ABC#16 ∧ encode (.waitKey 1#4) = 0xF10A#16 := by decide

theorem test_decode_one_byte_is_truncated : decodeBytes [0x6A#8] = .error .truncated := by decide

theorem test_table_words :
    decodeTableWord 16 0x00E0 = some .cls ∧ decodeTableWord 16 0xF10A = some (.waitKey 1#4) := by
  decide

/-! ### The tick: V10 to V16 -/

theorem test_tick_V10 :
    runs (start.setDT 3#8) 0x6A07 (fun t => t.getV 10#4 == 7#8 && t.dt == 2#8 && t.pc == 0x202#16)
      = true := by decide

theorem test_tick_fetch_wraps_V13 :
    runs (start.setPc 0xFFFF#16) 0x6A07 (fun t => t.getV 10#4 == 7#8 && t.pc == 0x0001#16)
      = true := by decide

theorem test_tick_fetch_ignores_high_pc_bits_V14 :
    runs (start.setPc 0x1200#16) 0x6A07 (fun t => t.getV 10#4 == 7#8 && t.pc == 0x1202#16 &&
      bytesAt t 0x200 2 == [0x6A#8, 0x07#8]) = true := by decide

theorem test_tick_odd_pc_V15 :
    runs (start.setPc 0x0201#16) 0x6A07 (fun t => t.getV 10#4 == 7#8 && t.pc == 0x0203#16)
      = true := by decide

theorem test_fetch_is_big_endian_V16 :
    (((start.writeByte 0x200 0x07#8).writeByte 0x201 0x6A#8).fetchInstr == .sys 0x76A#12)
      = true := by decide

/-! ### Control flow: V3 and V20 to V42 -/

theorem test_sys_V3 : runs start 0x0123 (fun t => t.pc == 0x202#16 && t.stack == start.stack)
    = true := by decide
theorem test_noOp_V3 : runs start 0x5001 (fun t => t.pc == 0x202#16 && t.v == start.v)
    = true := by decide
theorem test_noOp_class_F_V3 : runs start 0xF000 (fun t => t.pc == 0x202#16 && t.v == start.v)
    = true := by decide
theorem test_jump_V20 : runs start 0x1ABC (fun t => t.pc == 0x0ABC#16) = true := by decide
theorem test_jump_odd_V22 : runs start 0x1001 (fun t => t.pc == 0x0001#16) = true := by decide
theorem test_call_V24 :
    runs (atDepth 15 start) 0x2ABC (fun t => t.stack[15] == 0x0202#16 && t.sp == 16 &&
      t.pc == 0x0ABC#16 && t.fault == .none) = true := by decide
theorem test_call_overflow_V25 :
    runs ((atDepth 16 start).setDT 5#8) 0x2ABC (fun t => t.fault == .stackOverflow &&
      t.fault.code == 1 && t.pc == 0x200#16 && t.sp == 16 && t.dt == 5#8) = true := by decide
theorem test_ret_V28 :
    runs { atDepth 16 start with stack := start.stack.set 15 0x0ABC#16 } 0x00EE
      (fun t => t.sp == 15 && t.pc == 0x0ABC#16 && t.stack[15] == 0x0ABC#16) = true := by decide
theorem test_ret_underflow_V29 :
    runs (start.setDT 5#8) 0x00EE (fun t => t.fault == .stackUnderflow && t.fault.code == 2 &&
      t.pc == 0x200#16 && t.sp == 0 && t.dt == 5#8) = true := by decide
theorem test_jumpV0_V31 :
    runs (start.setV 0#4 0xFF#8) 0xBFFF (fun t => t.pc == 0x10FE#16) = true := by decide
theorem test_jumpV0_uses_V0_V32 :
    runs (start.setV 3#4 0x77#8) 0xB300 (fun t => t.pc == 0x0300#16) = true := by decide
theorem test_skipEqByte_V33 :
    runs (start.setV 3#4 0x2A#8) 0x332A (fun t => t.pc == 0x204#16) = true := by decide
theorem test_skipEqByte_wraps_V18 :
    runs (start.setPc 0xFFFE#16) 0x3000 (fun t => t.pc == 0x0002#16) = true := by decide
theorem test_skipNeByte_V35 :
    runs (start.setV 3#4 0x2A#8) 0x432A (fun t => t.pc == 0x202#16) = true := by decide
theorem test_skipNeByte_V36 : runs start 0x432A (fun t => t.pc == 0x204#16) = true := by decide
theorem test_skipEqReg_V37 :
    runs ((start.setV 1#4 9#8).setV 2#4 9#8) 0x5120 (fun t => t.pc == 0x204#16) = true := by decide
theorem test_skipEqReg_V38 :
    runs ((start.setV 1#4 9#8).setV 2#4 8#8) 0x5120 (fun t => t.pc == 0x202#16) = true := by decide
theorem test_skipNeReg_V40 :
    runs ((start.setV 1#4 9#8).setV 2#4 8#8) 0x9120 (fun t => t.pc == 0x204#16) = true := by decide
theorem test_skipNeReg_V42 :
    runs (start.setV 3#4 7#8) 0x9330 (fun t => t.pc == 0x202#16) = true := by decide

/-! ### ALU and register file: S8 to S15 and V43 to V69l -/

theorem test_loadByte_V44 : runs start 0x6FFF (fun t => t.getV 15#4 == 0xFF#8) = true := by decide
theorem test_addByte_V45 :
    runs (start.setV 0#4 0xFF#8) 0x7002 (fun t => t.getV 0#4 == 1#8 && t.getV 15#4 == 0#8)
      = true := by decide
theorem test_addByte_V47 :
    runs (start.setV 15#4 0xFF#8) 0x7F01 (fun t => t.getV 15#4 == 0#8) = true := by decide
theorem test_loadReg_V49 :
    runs (start.setV 2#4 0x5A#8) 0x8120 (fun t => t.getV 1#4 == 0x5A#8 && t.getV 2#4 == 0x5A#8)
      = true := by decide
theorem test_orReg_V52 :
    runs (((start.setV 1#4 0xF0#8).setV 2#4 0x0F#8).setV 15#4 1#8) 0x8121
      (fun t => t.getV 1#4 == 0xFF#8 && t.getV 15#4 == 1#8) = true := by decide
theorem test_andReg_V53 :
    runs (((start.setV 1#4 0xF0#8).setV 2#4 0x3C#8).setV 15#4 1#8) 0x8122
      (fun t => t.getV 1#4 == 0x30#8 && t.getV 15#4 == 1#8) = true := by decide
theorem test_xorReg_V54 :
    runs (((start.setV 1#4 0xF0#8).setV 2#4 0x3C#8).setV 15#4 1#8) 0x8123
      (fun t => t.getV 1#4 == 0xCC#8 && t.getV 15#4 == 1#8) = true := by decide
theorem test_addReg_S8 :
    runs ((start.setV 0#4 0xFF#8).setV 1#4 1#8) 0x8014
      (fun t => t.getV 0#4 == 0#8 && t.getV 15#4 == 1#8) = true := by decide
theorem test_addReg_result_over_flag_V59 :
    runs ((start.setV 15#4 0xFF#8).setV 1#4 3#8) 0x8F14 (fun t => t.getV 15#4 == 2#8)
      = true := by decide
theorem test_subReg_S11 :
    runs (((start.setV 1#4 3#8).setV 2#4 5#8).setV 15#4 1#8) 0x8125
      (fun t => t.getV 1#4 == 0xFE#8 && t.getV 15#4 == 0#8) = true := by decide
theorem test_subReg_equal_V62 :
    runs (((start.setV 1#4 7#8).setV 2#4 7#8).setV 15#4 1#8) 0x8125
      (fun t => t.getV 1#4 == 0#8 && t.getV 15#4 == 0#8) = true := by decide
theorem test_shrReg_ignores_y_V68 :
    runs ((start.setV 1#4 3#8).setV 2#4 0xFF#8) 0x8126
      (fun t => t.getV 1#4 == 1#8 && t.getV 15#4 == 1#8 && t.getV 2#4 == 0xFF#8) = true := by decide
theorem test_shrReg_result_over_flag_V69b :
    runs (start.setV 15#4 6#8) 0x8F26 (fun t => t.getV 15#4 == 3#8) = true := by decide
theorem test_subnReg_V69d :
    runs ((start.setV 1#4 3#8).setV 2#4 5#8) 0x8127
      (fun t => t.getV 1#4 == 2#8 && t.getV 15#4 == 1#8) = true := by decide
theorem test_subnReg_old_flag_V69h :
    runs ((start.setV 1#4 1#8).setV 15#4 1#8) 0x81F7
      (fun t => t.getV 1#4 == 0#8 && t.getV 15#4 == 0#8) = true := by decide
theorem test_shlReg_S15 :
    runs (start.setV 1#4 0x81#8) 0x812E (fun t => t.getV 1#4 == 2#8 && t.getV 15#4 == 1#8)
      = true := by decide
theorem test_shlReg_ignores_y_V69j :
    runs ((start.setV 1#4 0xFF#8).setV 2#4 0x55#8) 0x812E
      (fun t => t.getV 1#4 == 0xFE#8 && t.getV 15#4 == 1#8 && t.getV 2#4 == 0x55#8)
      = true := by decide
theorem test_rand_V69l :
    runs (start.supplyRnd 0xA7#8) 0xC30F (fun t => t.getV 3#4 == 7#8 && t.rndIn == [])
      = true := by decide
theorem test_rand_of_the_tick_V69n :
    (((start.withFetchWord 16 0xC3FF).tickWith 0x5C#8).getV 3#4 == 0x5C#8) = true := by decide

/-! ### Index register and memory: V110 to V133 -/

theorem test_loadI_V111 : runs start 0xAFFF (fun t => t.i == 0x0FFF#16) = true := by decide
theorem test_addI_V112 :
    runs ((start.setI 0x0FFE#16).setV 2#4 5#8) 0xF21E
      (fun t => t.i == 0x1003#16 && t.getV 15#4 == 0#8) = true := by decide
theorem test_addI_V114 :
    runs ((start.setI 0xFFFF#16).setV 2#4 1#8) 0xF21E (fun t => t.i == 0#16) = true := by decide
theorem test_loadSprite_V116 :
    runs (start.setV 0#4 0x0A#8) 0xF029 (fun t => t.i == 0x0082#16) = true := by decide
theorem test_loadSprite_V120 :
    runs (start.setV 0#4 0xFF#8) 0xF029 (fun t => t.i == 0x054B#16) = true := by decide
theorem test_bcd_V121 :
    runs ((start.setI 0x300#16).setV 0#4 254#8) 0xF033
      (fun t => bytesAt t 0x300 4 == [2#8, 5#8, 4#8, 0#8] && t.i == 0x300#16) = true := by decide
theorem test_bcd_wraps_V124 :
    runs ((start.setI 0x0FFF#16).setV 0#4 255#8) 0xF033
      (fun t => t.readByte 0xFFF == 2#8 && t.readByte 0 == 5#8 && t.readByte 1 == 5#8)
      = true := by decide
theorem test_dumpRegs_V126 :
    runs ((((start.setI 0x400#16).setV 0#4 1#8).setV 1#4 2#8).setRegs 2 [3#8, 4#8]) 0xF255
      (fun t => bytesAt t 0x400 4 == [1#8, 2#8, 3#8, 0#8] && t.i == 0x400#16) = true := by decide
theorem test_dumpRegs_V129 :
    runs ((start.setI 0x400#16).setRegs 0 ((List.range 16).map (fun k => BitVec.ofNat 8 (0xA0 + k))))
      0xFF55 (fun t => bytesAt t 0x400 16 == (List.range 16).map (fun k => BitVec.ofNat 8 (0xA0 + k)))
      = true := by decide
theorem test_loadRegs_V130 :
    runs ((start.writeBytes 0x300 [2#8, 5#8, 4#8, 9#8]).setI 0x300#16) 0xF265
      (fun t => t.getV 0#4 == 2#8 && t.getV 1#4 == 5#8 && t.getV 2#4 == 4#8 && t.getV 3#4 == 0#8 &&
        t.i == 0x300#16) = true := by decide
theorem test_loadRegs_wraps_V131 :
    runs ((start.writeBytes 0xFFF [0x11#8, 0x22#8]).setI 0x0FFF#16) 0xF165
      (fun t => t.getV 0#4 == 0x11#8 && t.getV 1#4 == 0x22#8 && t.mem.length == 4)
      = true := by decide

/-! ### Display: V70 to V79, V134 and V137 -/

/-- The start of V70. -/
def spriteAt60 : State :=
  ((((start.writeByte 0x300 0xFF#8).setI 0x300#16).setV 1#4 60#8).setV 2#4 5#8).setV 15#4 1#8

theorem test_cls_V134 :
    runs (lit [0, 2047] (start.setV 15#4 1#8)) 0x00E0
      (fun t => !t.pixel 0 && !t.pixel 2047 && t.getV 15#4 == 1#8) = true := by decide
theorem test_draw_wraps_V70 :
    runs spriteAt60 0xD121 (fun t => litFrom t 256 192 == [320, 321, 322, 323, 380, 381, 382, 383] &&
      t.getV 15#4 == 0#8) = true := by decide
theorem test_draw_erases_V71 :
    runs (lit [320, 321, 322, 323, 380, 381, 382, 383] spriteAt60) 0xD121
      (fun t => litFrom t 256 192 == [] && t.getV 15#4 == 1#8) = true := by decide
theorem test_draw_column_from_old_vf_V77 :
    runs ((((start.writeByte 0x300 0x80#8).setI 0x300#16).setV 15#4 7#8).setV 1#4 2#8) 0xDF11
      (fun t => litFrom t 128 64 == [135] && t.getV 15#4 == 0#8) = true := by decide
theorem test_draw_rows_wrap_V75 :
    runs ((start.writeBytes 0x300 [0x80#8, 0x40#8, 0x20#8]).setI 0x300#16 |>.setV 2#4 30#8) 0xD123
      (fun t => litFrom t 0 64 == [2] && litFrom t 1920 128 == [1920, 1985]) = true := by decide
theorem test_draw_reads_wrap_V79 :
    runs ((start.writeBytes 0xFFF [0x80#8, 0x01#8]).setI 0x0FFF#16) 0xD122
      (fun t => litFrom t 0 128 == [0, 71]) = true := by decide

/-! ### Keypad and timers: V80 to V99 and V138 to V144 -/

theorem test_skipIfKey_V140 :
    runs ((start.setKey 10#4 0xFF#8).setV 4#4 0x1A#8) 0xE49E (fun t => t.pc == 0x204#16)
      = true := by decide
theorem test_skipIfKey_V139 :
    runs (start.setV 4#4 0x0A#8) 0xE49E (fun t => t.pc == 0x202#16) = true := by decide
theorem test_skipIfNotKey_V142 :
    runs (start.setV 4#4 0x0A#8) 0xE4A1 (fun t => t.pc == 0x204#16) = true := by decide
theorem test_skipIfNotKey_V144 :
    runs ((start.setKey 10#4 1#8).setV 4#4 0x1A#8) 0xE4A1 (fun t => t.pc == 0x202#16)
      = true := by decide
theorem test_waitKey_holds_V80 :
    runs ((start.setPc 0x210#16).setDT 9#8) 0xF50A
      (fun t => t.pc == 0x210#16 && t.getV 5#4 == 0#8 && t.dt == 8#8) = true := by decide
theorem test_waitKey_takes_the_least_V81 :
    runs ((((start.setPc 0x210#16).setKey 7#4 1#8).setKey 3#4 1#8).setDT 8#8) 0xF50A
      (fun t => t.pc == 0x212#16 && t.getV 5#4 == 3#8 && t.dt == 7#8) = true := by decide
theorem test_loadDT_V87 :
    runs (start.setDT 4#8) 0xF407 (fun t => t.getV 4#4 == 4#8 && t.dt == 3#8) = true := by decide
theorem test_setDT_V96 :
    runs ((start.setV 3#4 255#8).setST 3#8) 0xF315 (fun t => t.dt == 254#8 && t.st == 2#8)
      = true := by decide
theorem test_setDT_V95 : runs (start.setV 3#4 1#8) 0xF315 (fun t => t.dt == 0#8) = true := by decide
theorem test_setST_V98 :
    runs ((start.setV 3#4 9#8).setDT 2#8) 0xF318 (fun t => t.st == 8#8 && t.dt == 1#8)
      = true := by decide
theorem test_setST_V99 : runs (start.setST 5#8) 0xF318 (fun t => t.st == 0#8) = true := by decide

/-! ### The host's transactions and reset: V100 to V106 -/

theorem test_load_V100 :
    (bytesAt (transact start (.load [0x12#8, 0x34#8, 0x56#8])).1 0x200 4 ==
      [0x12#8, 0x34#8, 0x56#8, 0x00#8]) = true := by decide

theorem test_load_twice_V103 :
    (bytesAt (start.runHost [.load [1#8, 2#8, 3#8, 4#8], .load [9#8]]) 0x200 5 ==
      [9#8, 2#8, 3#8, 4#8, 0#8]) = true := by decide

theorem test_load_too_large_V102 :
    loadFits (List.replicate 3585 1#8) = false ∧ loadFits (List.replicate 3584 1#8) = true := by
  simp only [loadFits, Config.progBase, Config.memSize, List.length_replicate]
  decide

/-- The faulted core of V105. -/
def faulted : State := { atDepth 16 start with fault := .stackOverflow }

theorem test_faulted_core_V105 :
    ((faulted.runHost [.setKey 3#4 1#8, .load [0x00#8, 0xE0#8], .tick 0#8]) ==
      (faulted.setKey 3#4 1#8).loadProgram [0x00#8, 0xE0#8]) = true ∧
    faulted.runHost [.setKey 3#4 1#8, .reset] = State.reset := by decide

theorem test_reset_memory_V106 :
    start.readByte 0x04F = 0#8 ∧ bytesAt start 0x050 5 = [0xF0#8, 0x90#8, 0x90#8, 0x90#8, 0xF0#8] ∧
    bytesAt start 0x09B 6 = [0xF0#8, 0x80#8, 0xF0#8, 0x80#8, 0x80#8, 0x00#8] ∧
    start.readByte 0x200 = 0#8 := by decide

theorem test_unloaded_core_V107 :
    start.runHost [.tick 0#8, .tick 0#8, .tick 0#8] = start.setPc 0x206#16 := by decide

/-- R92: below 0x200 "the fontset and the reserved area then execute as instructions"; R31 gives the
bytes F0 90 at 0x050, and by R41 `pc` 0x1050 fetches the same word. -/
theorem test_fontset_executes_R92 :
    (start.setPc 0x0050#16).fetchWord = 0xF090#16 ∧
      (start.setPc 0x1050#16).fetchWord = 0xF090#16 := by decide

/-! ### Witnesses: a state and operands that meet a statement's hypotheses -/

theorem test_witness_round_trip :
    (Instr.addReg 15#4 15#4).WellFormed ∧ (Instr.sys 0x0EF#12).WellFormed ∧
      decodeWord 0xFF65#16 ≠ .noOp ∧ decodeWord 0x0000#16 ≠ .noOp := by decide

theorem test_witness_table_walk :
    ∃ ra rb, 0 < 2 ∧ opcodeTable[0]? = some ra ∧ opcodeTable[2]? = some rb ∧
      ra.matches 0x00E0#16 = true ∧ rb.matches 0x00E0#16 = true :=
  ⟨_, _, by decide, rfl, rfl, by decide, by decide⟩

/-- A running core at an `AddReg`. -/
def adding : State := (start.setV 0#4 0xFF#8).withFetchWord 16 0x8014

theorem test_witness_step_runs :
    adding.fault = .none ∧
      decodeBytes [adding.readByte adding.pc.toNat, adding.readByte (adding.pc.toNat + 1)] =
        .ok (.addReg 0#4 1#4, []) ∧
      (Instr.addReg 0#4 1#4).WellFormed := by decide
theorem test_witness_step_of_a_faulted_core : faulted.fault ≠ .none := by decide

theorem test_witness_fault_that_was_not_there :
    ∃ t, exec .ret start = .next t ∧ t.fault ≠ start.fault := ⟨_, rfl, by decide⟩

theorem test_witness_timers :
    (adding.setDT 1#8).fault = .none ∧ ∃ u,
      exec (adding.setDT 1#8).fetchInstr (adding.setDT 1#8).advancePc = .next u ∧
        u.fault = .none := ⟨by decide, _, rfl, by decide⟩

theorem test_witness_timer_instructions :
    (start.withFetchWord 16 0xF315).fault = .none ∧
      (start.withFetchWord 16 0xF315).fetchInstr = .setDT 3#4 ∧
      (start.withFetchWord 16 0xFF18).fetchInstr = .setST 15#4 ∧
      (start.withFetchWord 16 0xF007).fetchInstr = .loadDT 0#4 := by decide

theorem test_witness_pc_after :
    adding.fault = .none ∧ ∃ t, step adding = .next t ∧ t.fault = .none :=
  ⟨by decide, _, rfl, by decide⟩

/-- A running core at a `Call` with a full stack. -/
def callFull : State := (atDepth 16 start).withFetchWord 16 0x2ABC

/-- A running core at a `Ret` with an empty stack. -/
def retEmpty : State := start.withFetchWord 16 0x00EE

theorem test_witness_stack_fault :
    callFull.fault = .none ∧ callFull.fetchInstr = .call 0xABC#12 ∧ callFull.sp.val = 16 ∧
      retEmpty.fault = .none ∧ retEmpty.fetchInstr = .ret ∧ retEmpty.sp.val = 0 := by decide

theorem test_witness_latch_overflow :
    ∃ t, callFull.fault = .none ∧ step callFull = .next t ∧ t.fault = .stackOverflow :=
  ⟨_, by decide, rfl, by decide⟩
theorem test_witness_latch_underflow :
    ∃ t, retEmpty.fault = .none ∧ step retEmpty = .next t ∧ t.fault = .stackUnderflow :=
  ⟨_, by decide, rfl, by decide⟩

theorem test_witness_invariant : Inv adding ∧ ∃ t, step adding = .next t :=
  ⟨⟨by decide, by decide, by decide⟩, _, rfl⟩

theorem test_witness_only_named_write : ∃ t, exec (.draw 1#4 2#4 3#4) adding = .next t := ⟨_, rfl⟩
theorem test_witness_only_named_write_clauses :
    ¬ writesMemory (.addI 15#4) ∧ ¬ writesIndex (.bcd 0#4) ∧ ¬ movesStack (.jump 0#12) ∧
      ¬ writesScreen (.waitKey 0#4) ∧ ¬ mayWriteReg (.loadRegs 14#4) 15#4 ∧
      ¬ mayWriteReg (.loadRegs 0#4) 1#4 := by
  simp [writesMemory, writesIndex, movesStack, writesScreen, mayWriteReg]

theorem test_witness_reads_no_key : ¬ readsKeys adding.fetchInstr := id
theorem test_witness_is_no_rand : ∀ x kk, adding.fetchInstr ≠ .rand x kk :=
  fun x kk h => by
    have is_add : adding.fetchInstr = .addReg 0#4 1#4 := by decide
    exact Instr.noConfusion (is_add.symm.trans h)

theorem test_witness_self_jump :
    (start.withFetchWord 16 0x1200).fault = .none ∧ AtSelfJump (start.withFetchWord 16 0x1200) :=
  ⟨by decide, 0x200#12, by decide, by decide⟩

theorem test_witness_wait_key :
    (start.withFetchWord 16 0xF50A).fault = .none ∧
      (start.withFetchWord 16 0xF50A).fetchInstr = .waitKey 5#4 ∧
      ∀ j, j < 16 → (start.withFetchWord 16 0xF50A).pressed j = false := by decide

theorem test_witness_sys : (0x0E1#12 : Addr12) ≠ 0x0E0#12 ∧ (0x0E1#12 : Addr12) ≠ 0x0EE#12 := by
  decide
theorem test_witness_noOp : ∀ row ∈ opcodeTable, 0x5001#16 &&& row.mask ≠ row.value := by
  simp [opcodeTable, rowNnn, rowXkk, rowXy, rowX]

theorem test_witness_call : (atDepth 15 start).sp.val < 16 ∧ (atDepth 0 start).sp.val < 16 ∧
    (atDepth 16 start).sp.val = 16 := by decide
theorem test_witness_ret : (atDepth 16 start).sp.val - 1 < 16 ∧ 0 < (atDepth 16 start).sp.val ∧
    (atDepth 1 start).sp.val - 1 < 16 ∧ 0 < (atDepth 1 start).sp.val ∧
    (atDepth 0 start).sp.val = 0 := by decide
theorem test_witness_ret_behind_call :
    ∃ t u : State, (atDepth 15 start).sp.val < 16 ∧ exec (.call 0x300#12) (atDepth 15 start) = .next t ∧
      u.stack = t.stack ∧ u.sp = t.sp := ⟨_, _, by decide, rfl, rfl, rfl⟩

theorem test_witness_register_skip_noOp : (0xF#4 : Nibble) ≠ 0#4 ∧ (1#4 : Nibble) ≠ 0#4 := by decide
theorem test_witness_flag_kept : (14#4 : Nibble) ≠ 15#4 ∧ (0#4 : Nibble) ≠ 15#4 := by decide

theorem test_witness_rand :
    (start.supplyRnd 0xA7#8).rndIn = [0xA7#8] ∧ start.rndIn = [] := by decide

theorem test_witness_dump_and_load_ranges :
    (15#4 : Nibble).toNat ≤ (15#4 : Nibble).toNat ∧ (0#4 : Nibble).toNat ≤ (0#4 : Nibble).toNat ∧
      (1 : Nat) ≤ (1#4 : Nibble).toNat := by decide

theorem test_witness_dump_then_load :
    ∃ t u : State, exec (.dumpRegs 15#4) (start.setI 0xFFF#16) = .next t ∧ u.i = t.i ∧
      ∀ k, k ≤ (15#4 : Nibble).toNat →
        u.readByte (t.i.toNat + k) = t.readByte (t.i.toNat + k) :=
  ⟨_, _, rfl, rfl, fun _ _ => rfl⟩

/-- A core about to store over the word it will fetch next, with `I` above the address space. -/
def selfStore : State := (start.setI 0x1202#16).setPc 0x202#16

theorem test_witness_self_modifying :
    ∃ t, 1 ≤ (1#4 : Nibble).toNat ∧ exec (.dumpRegs 1#4) selfStore = .next t ∧
      selfStore.i.toNat % 4096 = selfStore.pc.toNat % 4096 := ⟨_, by decide, rfl, by decide⟩

theorem test_witness_draw_covers :
    Covers spriteAt60 60 5 1 63 5 ∧ Covers spriteAt60 60 5 1 0 5 :=
  ⟨⟨0, 3, by decide⟩, ⟨0, 4, by decide⟩⟩
theorem test_witness_draw_covers_not : ¬ Covers spriteAt60 60 5 1 4 5 := by
  rintro ⟨row, bit, _, below, column, _⟩
  omega
theorem test_witness_draw_hits_a_lit_pixel :
    (lit [383] spriteAt60).pixel (5 * 64 + 63) = true ∧ Covers (lit [383] spriteAt60) 60 5 1 63 5 :=
  ⟨by decide, 0, 3, by decide⟩
theorem test_witness_draw_hits_no_lit_pixel :
    ¬ ∃ px py, px < 64 ∧ py < 32 ∧ start.pixel (py * 64 + px) = true ∧
      Covers start 0 0 0 px py := by
  rintro ⟨px, py, _, _, _, row, _, none_below, _⟩
  omega

theorem test_witness_draw_twice :
    ∃ t u : State, exec (.draw 1#4 2#4 1#4) spriteAt60 = .next t ∧ u.gfx = t.gfx ∧
      u.getV 1#4 = spriteAt60.getV 1#4 ∧ u.getV 2#4 = spriteAt60.getV 2#4 ∧ u.i = spriteAt60.i ∧
      (∀ k, k < (1#4 : Nibble).toNat →
        u.readByte (spriteAt60.i.toNat + k) = spriteAt60.readByte (spriteAt60.i.toNat + k)) ∧
      spriteAt60.pixel 383 = false ∧ t.pixel 383 = true :=
  ⟨_, _, rfl, rfl, by decide, by decide, by decide, by decide, by decide, by decide⟩

theorem test_witness_key_skips :
    ((start.setV 1#4 0xFF#8).getV 1#4).toNat % 16 = 15 ∧ (start.getV 1#4).toNat % 16 = 0 := by decide

theorem test_witness_wait_key_takes :
    (start.setKey 15#4 1#8).keypad[15] ≠ 0#8 ∧
      (∀ (j : Nat) (hj : j < 15), (start.setKey 15#4 1#8).keypad[j] = 0#8) ∧
      (start.setKey 0#4 0xFF#8).keypad[0] ≠ 0#8 := by decide
theorem test_witness_wait_key_none : ∀ (j : Nat) (hj : j < 16), start.keypad[j] = 0#8 := by decide

theorem test_witness_load :
    (List.replicate 3584 1#8).length ≤ 3584 ∧ 3584 < (List.replicate 3585 1#8).length := by
  simp only [List.length_replicate]
  omega

theorem test_witness_tick_rnd :
    (start.withFetchWord 16 0xC30F).fault = .none ∧
      (start.withFetchWord 16 0xC30F).fetchInstr = .rand 3#4 0x0F#8 := by decide

/-- Every unlisted byte outside the fontset is 0 (R30). -/
theorem unlistedByte_eq_zero {a : Nat} (h : a < 0x050 ∨ 0x09F < a) : unlistedByte a = 0#8 :=
  if_neg (by simp only [Config.fontBase, Config.fontSize]; omega)

theorem test_witness_zeroed_memory :
    start.fault = .none ∧ ∀ j, j < 1832 →
      { start with pc := start.pc + BitVec.ofNat 16 (2 * j) }.fetchWord = 0#16 := by
  refine ⟨rfl, fun j h => ?_⟩
  have pc_eq : (start.pc + BitVec.ofNat 16 (2 * j)).toNat = 512 + 2 * j := by
    rw [BitVec.toNat_add, BitVec.toNat_ofNat]
    simp only [start, State.reset, BitVec.toNat_ofNat]
    omega
  simp only [State.fetchWord, pc_eq]
  show wordOfBytes (unlistedByte ((512 + 2 * j) % 4096)) (unlistedByte ((512 + 2 * j + 1) % 4096)) = 0#16
  rw [unlistedByte_eq_zero (by omega), unlistedByte_eq_zero (by omega)]
  rfl

/-- A core at the top of the 16-bit `pc` whose program has stored zeros over the fontset. -/
def blank : State := (start.writeBytes 0x050 (List.replicate 80 0#8)).setPc 0xFFFE#16

theorem test_witness_all_memory_zero :
    blank.fault = .none ∧ ∀ a, a < 4096 → blank.readByte a = 0#8 := by
  refine ⟨by rw [blank, State.writeBytes_eq]; rfl, fun a below => ?_⟩
  rw [blank, State.setPc_readByte]
  by_cases font : 0x050 ≤ a ∧ a ≤ 0x09F
  · obtain ⟨k, rfl⟩ : ∃ k, a = 0x050 + k := ⟨a - 0x050, by omega⟩
    rw [State.readByte_writeBytes_inside _ _ _ _ (by simp) (by simp; omega)]
    exact List.getElem_replicate _
  · rw [State.readByte_writeBytes_outside]
    · show unlistedByte (a % 4096) = 0#8
      exact unlistedByte_eq_zero (by omega)
    · simp only [List.length_replicate]
      omega

theorem test_sys_wraps_pc_R67 :
    (start.setPc 0xFFFE#16).runHost [.tick 0#8, .tick 0#8] = start.setPc 0x0002#16 := by decide

theorem test_witness_canonical_memory : start.mem.wf ∧ adding.mem.wf := by decide

end Sys2Proof.Tests
end

section
/-! SUPPORT. Proofs about the tick cycle (40_tick_cycle.md). -/

namespace Sys2Proof.Proofs

open Sys2Proof.Machine

/-- A running core whose instruction leaves `u` without a fault ends the tick from `u` (R85): the
direction of `step_cases` that gives the next state. -/
theorem step_of_exec_unfaulted {s u : State} (running : s.fault = .none)
    (executed : exec s.fetchInstr s.advancePc = .next u) (unfaulted : u.fault = .none) :
    step s = .next u.endTick := by
  rw [step_of_running running, executed, finishOutcome, State.finishTick_of_running unfaulted]

/-- Settles O8: the next state is `u.endTick`, whose timers are `countDown` of `u`'s. -/
theorem timersDecrementAfterExecute : Obligations.TimersDecrementAfterExecute := by
  intro s u running executed unfaulted
  have ticked : step s = .next u.endTick := step_of_exec_unfaulted running executed unfaulted
  exact ⟨u.endTick, ticked, countDown_toNat u.dt, countDown_toNat u.st, rfl⟩

end Sys2Proof.Proofs
end

section
/-! SUPPORT. Proofs about the control-flow instructions (41_control_flow.md). -/

namespace Sys2Proof.Proofs

open Sys2Proof.Machine Sys2Proof.Safety

/-! ### What a write of `pc` and a skip do -/

theorem setPc_onlyPc (s : State) (w : Word) : OnlyPc s (s.setPc w) :=
  ⟨fun _ _ => rfl, fun _ _ _ => rfl, rfl, ⟨rfl, rfl⟩, fun _ => rfl, ⟨rfl, rfl⟩, ⟨rfl, rfl⟩,
    ⟨rfl, rfl⟩⟩

theorem skipIf_onlyPc (s : State) (taken : Bool) : OnlyPc s (s.skipIf taken) := by
  rw [State.skipIf_pc]
  exact setPc_onlyPc s _

theorem skipIf_pc_toNat (s : State) (taken : Bool) :
    (s.skipIf taken).pc.toNat = (s.pc.toNat + if taken then 2 else 0) % 65536 := by
  rw [State.skipIf_pc, State.setPc_pc]
  cases taken with
  | true => exact BitVec.toNat_add _ _
  | false => exact (Nat.mod_eq_of_lt s.pc.isLt).symm

/-- A skip on equality of two bytes, whichever bytes the instruction compares (R96, R98). -/
theorem skipIf_beq (s : State) (a b : Byte) :
    OnlyPc s (s.skipIf (a == b)) ∧
      (s.skipIf (a == b)).pc.toNat = (s.pc.toNat + if a = b then 2 else 0) % 65536 :=
  ⟨skipIf_onlyPc s _, by rw [skipIf_pc_toNat]; simp only [beq_iff_eq]⟩

/-- A skip on inequality of two bytes, whichever bytes the instruction compares (R97, R99). -/
theorem skipIf_bne (s : State) (a b : Byte) :
    OnlyPc s (s.skipIf (a != b)) ∧
      (s.skipIf (a != b)).pc.toNat = (s.pc.toNat + if a = b then 0 else 2) % 65536 :=
  ⟨skipIf_onlyPc s _, by rw [skipIf_pc_toNat]; simp only [bne_iff_ne, ite_not]⟩

/-! ### The words of the control-flow instructions -/

theorem decodeWord_sys {nnn : Addr12} (not_cls : nnn ≠ 0x0E0#12) (not_ret : nnn ≠ 0x0EE#12) :
    decodeWord (wordNnn 0x0#4 nnn) = .sys nnn := by
  rw [decodeWord_of_not_exact (not_exact_of_nnn (by simpa using not_cls) (by simpa using not_ret))]
  simp

theorem decodeWord_jump (nnn : Addr12) : decodeWord (wordNnn 0x1#4 nnn) = .jump nnn := by
  rw [decodeWord_of_not_exact (not_exact_of_class (by simp))]
  simp

theorem decodeWord_skipEqByte (x : Nibble) (kk : Byte) :
    decodeWord (wordXkk 0x3#4 x kk) = .skipEqByte x kk := by
  rw [decodeWord_of_not_exact (not_exact_of_class (by simp))]
  simp

theorem decodeWord_skipNeByte (x : Nibble) (kk : Byte) :
    decodeWord (wordXkk 0x4#4 x kk) = .skipNeByte x kk := by
  rw [decodeWord_of_not_exact (not_exact_of_class (by simp))]
  simp

theorem decodeWord_class5 (x y n : Nibble) :
    decodeWord (wordXyn 0x5#4 x y n) = if n = 0#4 then .skipEqReg x y else .noOp := by
  rw [decodeWord_of_not_exact (not_exact_of_class (by simp))]
  simp

theorem decodeWord_class9 (x y n : Nibble) :
    decodeWord (wordXyn 0x9#4 x y n) = if n = 0#4 then .skipNeReg x y else .noOp := by
  rw [decodeWord_of_not_exact (not_exact_of_class (by simp))]
  simp

/-! ### The words no row of the opcode map matches (30_encoding.md R63, R64) -/

/-- No row of the opcode map matches the word (R63). -/
def Unmatched (op : Word) : Prop := ∀ row ∈ opcodeTable, op &&& row.mask ≠ row.value

/-- The masks and values of the opcode map, without what the rows decode to. -/
def maskValues : List (Word × Word) := opcodeTable.map fun row => (row.mask, row.value)

theorem Unmatched.and_ne {op mask value : Word} (unmatched : Unmatched op)
    (listed : (mask, value) ∈ maskValues) : op &&& mask ≠ value := by
  obtain ⟨row, in_table, is_row⟩ := List.mem_map.mp listed
  obtain ⟨rfl, rfl⟩ := Prod.mk.inj is_row
  exact unmatched row in_table

theorem Unmatched.not_exact {op : Word} (unmatched : Unmatched op) :
    op ≠ 0x00E0#16 ∧ op ≠ 0x00EE#16 := by
  have cls_listed : (0xFFFF#16, 0x00E0#16) ∈ maskValues := by decide
  have ret_listed : (0xFFFF#16, 0x00EE#16) ∈ maskValues := by decide
  constructor
  · rintro rfl; exact unmatched.and_ne cls_listed (by decide)
  · rintro rfl; exact unmatched.and_ne ret_listed (by decide)

/-- The class is none that a row with mask 0xF000 lists. -/
theorem Unmatched.fieldClass_ne {op : Word} {c : Nibble} (unmatched : Unmatched op)
    (listed : (0xF000#16, wordNnn c 0#12) ∈ maskValues) : fieldClass op ≠ c := fun is_c =>
  unmatched.and_ne listed (by rw [and_maskClass, is_c])

/-- The low nibble is none that a row with mask 0xF00F lists for the class. -/
theorem Unmatched.fieldN_ne {op : Word} {c n : Nibble} (unmatched : Unmatched op)
    (is_c : fieldClass op = c) (listed : (0xF00F#16, wordXyn c 0#4 0#4 n) ∈ maskValues) :
    fieldN op ≠ n := fun is_n =>
  unmatched.and_ne listed (by rw [and_maskNibble, is_c, is_n])

/-- The low byte is none that a row with mask 0xF0FF lists for the class. -/
theorem Unmatched.fieldKk_ne {op : Word} {c : Nibble} {kk : Byte} (unmatched : Unmatched op)
    (is_c : fieldClass op = c) (listed : (0xF0FF#16, wordXkk c 0#4 kk) ∈ maskValues) :
    fieldKk op ≠ kk := fun is_kk =>
  unmatched.and_ne listed (by rw [and_maskByte, is_c, is_kk])

/-- Only the five classes with a sub-operation (R65) have unmatched words. -/
theorem Unmatched.fieldClass_cases {op : Word} (unmatched : Unmatched op) :
    fieldClass op = 0x5#4 ∨ fieldClass op = 0x8#4 ∨ fieldClass op = 0x9#4 ∨
      fieldClass op = 0xE#4 ∨ fieldClass op = 0xF#4 := by
  have listed_or_subop : ∀ c : Nibble, (0xF000#16, wordNnn c 0#12) ∈ maskValues ∨
      c = 0x5#4 ∨ c = 0x8#4 ∨ c = 0x9#4 ∨ c = 0xE#4 ∨ c = 0xF#4 := by decide
  exact (listed_or_subop (fieldClass op)).resolve_left fun listed =>
    unmatched.fieldClass_ne listed rfl

theorem decodeClass8_eq_noOp {n : Nibble} (x y : Nibble)
    (unlisted : (0xF00F#16, wordXyn 0x8#4 0#4 0#4 n) ∉ maskValues) :
    decodeClass8 x y n = .noOp := by
  unfold decodeClass8
  split
  case h_10 => rfl
  all_goals exact absurd (by decide) unlisted

theorem decodeClassE_eq_noOp {kk : Byte} (x : Nibble)
    (unlisted : (0xF0FF#16, wordXkk 0xE#4 0#4 kk) ∉ maskValues) :
    decodeClassE x kk = .noOp := by
  unfold decodeClassE
  split
  case h_3 => rfl
  all_goals exact absurd (by decide) unlisted

theorem decodeClassF_eq_noOp {kk : Byte} (x : Nibble)
    (unlisted : (0xF0FF#16, wordXkk 0xF#4 0#4 kk) ∉ maskValues) :
    decodeClassF x kk = .noOp := by
  unfold decodeClassF
  split
  case h_10 => rfl
  all_goals exact absurd (by decide) unlisted

/-- Each class with a sub-operation decodes an unlisted one to `NoOp` (R65). -/
theorem Unmatched.decodeWord_eq {op : Word} (unmatched : Unmatched op) : decodeWord op = .noOp := by
  rw [decodeWord_of_not_exact unmatched.not_exact]
  rcases unmatched.fieldClass_cases with is_c | is_c | is_c | is_c | is_c <;> rw [is_c]
  · exact if_neg (unmatched.fieldN_ne is_c (by decide))
  · exact decodeClass8_eq_noOp _ _ fun listed => unmatched.fieldN_ne is_c listed rfl
  · exact if_neg (unmatched.fieldN_ne is_c (by decide))
  · exact decodeClassE_eq_noOp _ fun listed => unmatched.fieldKk_ne is_c listed rfl
  · exact decodeClassF_eq_noOp _ fun listed => unmatched.fieldKk_ne is_c listed rfl

/-! ### The statements -/

/-- Settles O19: the two exact matches are the only words of class 0 that are not `Sys`. -/
theorem sysHasNoEffect : Obligations.SysHasNoEffect := by
  intro nnn
  exact ⟨decodeWord_sys, fun _ => rfl⟩

/-- Settles O20, by the class of the word: an unmatched one has an unlisted sub-operation. -/
theorem noOpHasNoEffect : Obligations.NoOpHasNoEffect :=
  ⟨fun _ unmatched => Unmatched.decodeWord_eq unmatched, fun _ => rfl⟩

/-- Settles O21: `Jump` is one write of `pc`, and 12 bits fit into 16. -/
theorem jumpSetsPc : Obligations.JumpSetsPc := by
  intro nnn
  have target_fits : (immAddr nnn).toNat = nnn.toNat :=
    BitVec.toNat_setWidth_of_le (by decide)
  exact ⟨decodeWord_jump nnn, fun s => ⟨_, rfl, target_fits, setPc_onlyPc s (immAddr nnn)⟩⟩

/-- Settles O26: the two skips compare `V[x]` with `kk`. -/
theorem byteSkipsCompareTheRegister : Obligations.ByteSkipsCompareTheRegister := by
  intro x kk
  refine ⟨decodeWord_skipEqByte x kk, decodeWord_skipNeByte x kk, fun s => ⟨?_, ?_⟩⟩
  · exact ⟨_, rfl, skipIf_beq s (s.getV x) kk⟩
  · exact ⟨_, rfl, skipIf_bne s (s.getV x) kk⟩

/-- Settles O27: the two skips compare `V[x]` with `V[y]`, and classes 5 and 9 have no other
sub-operation. -/
theorem registerSkipsCompareTwoRegisters : Obligations.RegisterSkipsCompareTwoRegisters := by
  intro x y
  refine ⟨(decodeWord_class5 x y 0#4).trans (if_pos rfl),
    (decodeWord_class9 x y 0#4).trans (if_pos rfl), fun n nonzero => ⟨?_, ?_⟩, fun s => ⟨?_, ?_⟩⟩
  · exact (decodeWord_class5 x y n).trans (if_neg nonzero)
  · exact (decodeWord_class9 x y n).trans (if_neg nonzero)
  · exact ⟨_, rfl, skipIf_beq s (s.getV x) (s.getV y)⟩
  · exact ⟨_, rfl, skipIf_bne s (s.getV x) (s.getV y)⟩

end Sys2Proof.Proofs
end

section
/-! SUPPORT. Proofs about the ALU instructions that write one register and no flag (42_alu.md R100
to R105). -/

namespace Sys2Proof.Proofs

open Sys2Proof.Machine Sys2Proof.Safety

/-! ### What a write of one register leaves unchanged -/

theorem setV_onlyRegs (s : State) (x : Nibble) (b : Byte) : OnlyRegs (· = x) s (s.setV x b) := by
  have same_regs : SameRegs (· = x) s (s.setV x b) := fun j other => by
    rw [State.getV_setV, if_neg other]
  exact ⟨same_regs, ⟨fun _ _ _ => rfl, rfl, rfl, ⟨rfl, rfl⟩, fun _ => rfl, ⟨rfl, rfl⟩, ⟨rfl, rfl⟩⟩,
    ⟨rfl, rfl⟩⟩

/-! ### The words of the ALU instructions -/

theorem decodeWord_loadByte (x : Nibble) (kk : Byte) :
    decodeWord (wordXkk 0x6#4 x kk) = .loadByte x kk := by
  rw [decodeWord_of_not_exact (not_exact_of_class (by simp))]
  simp

theorem decodeWord_addByte (x : Nibble) (kk : Byte) :
    decodeWord (wordXkk 0x7#4 x kk) = .addByte x kk := by
  rw [decodeWord_of_not_exact (not_exact_of_class (by simp))]
  simp

/-- A word of class 8 is decided by its low nibble (R65). -/
theorem decodeWord_class8 (x y n : Nibble) :
    decodeWord (wordXyn 0x8#4 x y n) = decodeClass8 x y n := by
  rw [decodeWord_of_not_exact (not_exact_of_class (by simp))]
  simp

/-! ### The statements -/

/-- Settles O28: `LoadByte` is one write of `V[x]`. -/
theorem loadByteSetsTheRegister : Obligations.LoadByteSetsTheRegister := by
  intro x kk
  exact ⟨decodeWord_loadByte x kk, fun s =>
    ⟨_, rfl, State.getV_setV_self s x kk, setV_onlyRegs s x kk⟩⟩

/-- Settles O29: `AddByte` is one write of `V[x]`, and the sum of two bytes wraps mod 256. -/
theorem addByteWrapsWithoutFlag : Obligations.AddByteWrapsWithoutFlag := by
  intro x kk
  refine ⟨decodeWord_addByte x kk, fun s => ⟨_, rfl, ?_, setV_onlyRegs s x (s.getV x + kk)⟩⟩
  rw [State.getV_setV_self, BitVec.toNat_add]

/-- Settles O30: `LoadReg` is one write of `V[x]`, of the old `V[y]`. -/
theorem loadRegCopies : Obligations.LoadRegCopies := by
  intro x y
  exact ⟨decodeWord_class8 x y 0x0#4, fun s =>
    ⟨_, rfl, State.getV_setV_self s x (s.getV y), setV_onlyRegs s x (s.getV y)⟩⟩

/-- Settles O31: each of the three is one write of `V[x]`, and the operation on bytes is the one on
their bits. -/
theorem bitwiseCombineWithoutFlag : Obligations.BitwiseCombineWithoutFlag := by
  intro x y
  refine ⟨decodeWord_class8 x y 0x1#4, decodeWord_class8 x y 0x2#4, decodeWord_class8 x y 0x3#4,
    fun s => ⟨⟨_, rfl, setV_onlyRegs s x _, fun b => ?_⟩, ⟨_, rfl, setV_onlyRegs s x _, fun b => ?_⟩,
      ⟨_, rfl, setV_onlyRegs s x _, fun b => ?_⟩⟩⟩
  · rw [State.getV_setV_self, BitVec.getLsbD_or]
  · rw [State.getV_setV_self, BitVec.getLsbD_and]
  · rw [State.getV_setV_self, BitVec.getLsbD_xor]

end Sys2Proof.Proofs
end

section
/-! SUPPORT. Proofs about the instructions that write only the index register (43_index_memory.md
R120, R122). -/

namespace Sys2Proof.Proofs

open Sys2Proof.Machine Sys2Proof.Safety

/-! ### What a write of `I` leaves unchanged -/

theorem setI_onlyIndex (s : State) (w : Word) : OnlyIndex s (s.setI w) :=
  ⟨fun _ _ => rfl, fun _ _ _ => rfl, rfl, ⟨rfl, rfl⟩, fun _ => rfl, ⟨rfl, rfl⟩, ⟨rfl, rfl⟩,
    ⟨rfl, rfl⟩⟩

/-! ### The addresses the two instructions put into `I` -/

/-- An immediate of 12 bits is its own value in 16 bits. -/
theorem immAddr_toNat (nnn : Addr12) : (immAddr nnn).toNat = nnn.toNat :=
  BitVec.toNat_setWidth_of_le (by decide)

/-- No glyph address wraps: the last one, of byte 255, is 0x54B. -/
theorem glyphAddr_toNat (b : Byte) : (glyphAddr b).toNat = 0x050 + 5 * b.toNat := by
  have below : 0x050 + 5 * b.toNat < 2 ^ 16 := by have := b.isLt; omega
  exact (BitVec.toNat_ofNat _ _).trans (Nat.mod_eq_of_lt below)

/-! ### The words of the two instructions -/

theorem decodeWord_loadI (nnn : Addr12) : decodeWord (wordNnn 0xA#4 nnn) = .loadI nnn := by
  rw [decodeWord_of_not_exact (not_exact_of_class (by simp))]
  simp

/-- A word of class F is decided by its low byte (R65). -/
theorem decodeWord_classF (x : Nibble) (kk : Byte) :
    decodeWord (wordXkk 0xF#4 x kk) = decodeClassF x kk := by
  rw [decodeWord_of_not_exact (not_exact_of_class (by simp))]
  simp

/-! ### The statements -/

/-- Settles O36: `LoadI` is one write of `I`, and 12 bits fit into 16. -/
theorem loadISetsTheIndex : Obligations.LoadISetsTheIndex := by
  intro nnn
  exact ⟨decodeWord_loadI nnn, fun s =>
    ⟨_, rfl, immAddr_toNat nnn, setI_onlyIndex s (immAddr nnn)⟩⟩

/-- Settles O38: `LoadSprite` is one write of `I`, and the glyph address of the whole byte fits. -/
theorem loadSpriteGivesTheGlyphAddress : Obligations.LoadSpriteGivesTheGlyphAddress := by
  intro x
  exact ⟨decodeWord_classF x 0x29#8, fun s =>
    ⟨_, rfl, glyphAddr_toNat (s.getV x), setI_onlyIndex s (glyphAddr (s.getV x))⟩⟩

end Sys2Proof.Proofs
end

section
/-! SUPPORT. Proofs about the display instructions (44_display.md). -/

namespace Sys2Proof.Proofs

open Sys2Proof.Machine Sys2Proof.Safety

/-! ### What clearing the framebuffer leaves unchanged -/

theorem clearGfx_onlyScreenAndRegs (s : State) : OnlyScreenAndRegs nothing s s.clearGfx :=
  ⟨fun _ _ => rfl, fun _ _ _ => rfl, rfl, rfl, ⟨rfl, rfl⟩, ⟨rfl, rfl⟩, ⟨rfl, rfl⟩, ⟨rfl, rfl⟩⟩

/-! ### The word of `Cls` -/

theorem decodeWord_cls : decodeWord 0x00E0#16 = .cls := if_pos rfl

/-! ### The statements -/

/-- Settles O44: `Cls` is one clearing of `gfx`, which leaves no cell lit. -/
theorem clsClearsEveryCell : Obligations.ClsClearsEveryCell :=
  ⟨decodeWord_cls, fun s =>
    ⟨s.clearGfx, rfl, fun k _ => State.pixel_clearGfx s k, clearGfx_onlyScreenAndRegs s⟩⟩

end Sys2Proof.Proofs
end

section
/-! SUPPORT. Proofs about the keypad and timer instructions (45_keypad_timers.md). -/

namespace Sys2Proof.Proofs

open Sys2Proof.Machine Sys2Proof.Safety

/-! ### What a write of a timer leaves unchanged -/

theorem setDT_onlyTimers (s : State) (b : Byte) : OnlyTimers s (s.setDT b) :=
  ⟨fun _ _ => rfl, fun _ _ _ => rfl, rfl, rfl, ⟨rfl, rfl⟩, fun _ => rfl, ⟨rfl, rfl⟩, ⟨rfl, rfl⟩⟩

theorem setST_onlyTimers (s : State) (b : Byte) : OnlyTimers s (s.setST b) :=
  ⟨fun _ _ => rfl, fun _ _ _ => rfl, rfl, rfl, ⟨rfl, rfl⟩, fun _ => rfl, ⟨rfl, rfl⟩, ⟨rfl, rfl⟩⟩

/-! ### The keypad as `WaitKey` scans it -/

theorem pressed_eq_true_iff (s : State) {k : Nat} (below : k < 16) :
    s.pressed k = true ↔ s.keypad[k] ≠ 0#8 := by
  simp only [State.pressed, Nat.mod_eq_of_lt below, bne_iff_ne]

theorem pressed_eq_false_iff (s : State) {k : Nat} (below : k < 16) :
    s.pressed k = false ↔ s.keypad[k] = 0#8 := by
  rw [← Bool.not_eq_true, pressed_eq_true_iff s below, not_not]

/-- With no key down, the case of `execWaitKey_cases` that takes a key is excluded. -/
theorem execWaitKey_of_no_key {s : State} (x : Nibble) (none_down : ∀ k < 16, s.pressed k = false) :
    execWaitKey x s = .next s.rewindPc := by
  obtain ⟨-, held⟩ | ⟨k, below, down, -, -⟩ := execWaitKey_cases x s
  · exact held
  · exact absurd down (Bool.eq_false_iff.mp (none_down k below))

/-- With key `k` down and no lower one, the key that `execWaitKey_cases` takes is `k`: neither of the
two is below the other. -/
theorem execWaitKey_of_least_key {s : State} {k : Nat} (x : Nibble) (below : k < 16)
    (down : s.pressed k = true) (least : ∀ j < k, s.pressed j = false) :
    execWaitKey x s = .next (s.setV x (BitVec.ofNat 8 k)) := by
  obtain ⟨none_down, -⟩ | ⟨k', -, down', least', taken⟩ := execWaitKey_cases x s
  · exact absurd down (Bool.eq_false_iff.mp (none_down k below))
  · have not_lower : ¬ k' < k := fun lower => Bool.eq_false_iff.mp (least k' lower) down'
    have not_higher : ¬ k < k' := fun higher => Bool.eq_false_iff.mp (least' k higher) down
    obtain rfl : k' = k := by omega
    exact taken

/-! ### The ticks of a running core that fetches one of these instructions -/

/-- `step_of_exec_unfaulted` for an instruction given by name. -/
theorem step_of_fetchInstr {s u : State} {i : Instr} (running : s.fault = .none)
    (fetched : s.fetchInstr = i) (executed : exec i s.advancePc = .next u)
    (unfaulted : u.fault = .none) : step s = .next u.endTick := by
  subst fetched
  exact step_of_exec_unfaulted running executed unfaulted

/-- The hold of R142: a tick with no key down changes nothing but what every tick's end does. -/
theorem step_waitKey_of_no_key {s : State} {x : Nibble} (running : s.fault = .none)
    (fetched : s.fetchInstr = .waitKey x) (none_down : ∀ k < 16, s.pressed k = false) :
    step s = .next s.endTick := by
  have held : exec (.waitKey x) s.advancePc = .next s.advancePc.rewindPc :=
    execWaitKey_of_no_key x none_down
  rw [State.advancePc_rewindPc] at held
  exact step_of_fetchInstr running fetched held running

/-- A tick that fetches `WaitKey` completes without a fault, whatever the keypad (R142). -/
theorem step_waitKey_unfaulted {s : State} {x : Nibble} (running : s.fault = .none)
    (fetched : s.fetchInstr = .waitKey x) : ∃ t, step s = .next t ∧ t.fault = .none := by
  obtain ⟨-, held⟩ | ⟨k, -, -, -, taken⟩ := execWaitKey_cases x s.advancePc
  · exact ⟨_, step_of_fetchInstr running fetched held running, running⟩
  · exact ⟨_, step_of_fetchInstr running fetched taken running, running⟩

theorem step_loadDT {s : State} {x : Nibble} (running : s.fault = .none)
    (fetched : s.fetchInstr = .loadDT x) :
    step s = .next (s.advancePc.setV x s.dt).endTick :=
  step_of_fetchInstr running fetched rfl running

theorem step_setDT {s : State} {x : Nibble} (running : s.fault = .none)
    (fetched : s.fetchInstr = .setDT x) :
    step s = .next (s.advancePc.setDT (s.getV x)).endTick :=
  step_of_fetchInstr running fetched rfl running

theorem step_setST {s : State} {x : Nibble} (running : s.fault = .none)
    (fetched : s.fetchInstr = .setST x) :
    step s = .next (s.advancePc.setST (s.getV x)).endTick :=
  step_of_fetchInstr running fetched rfl running

/-! ### The statements -/

/-- Settles O48: the least pressed key is the one the scan takes, and with none pressed the tick
ends where it began. -/
theorem waitKeyTakesTheLeastKey : Obligations.WaitKeyTakesTheLeastKey := by
  intro x
  refine ⟨decodeWord_classF x 0x0A#8, fun s k below down least => ?_, fun s none_down => ?_,
    fun s running fetched => ?_⟩
  · have taken : exec (.waitKey x) s = .next (s.setV x (BitVec.ofNat 8 k)) :=
      execWaitKey_of_least_key x below ((pressed_eq_true_iff s below).mpr down)
        fun j lower => (pressed_eq_false_iff s (lower.trans below)).mpr (least j lower)
    have key_fits : (BitVec.ofNat 8 k).toNat = k :=
      (BitVec.toNat_ofNat k 8).trans (Nat.mod_eq_of_lt (below.trans (by decide)))
    exact ⟨_, taken, by rw [State.getV_setV_self, key_fits], setV_onlyRegs s x _⟩
  · exact execWaitKey_of_no_key x fun j hj => (pressed_eq_false_iff s hj).mpr (none_down j hj)
  · obtain ⟨t, ticked, unfaulted⟩ := step_waitKey_unfaulted running fetched
    refine ⟨t, ticked, unfaulted, fun none_down => ?_⟩
    have held : step s = .next s.endTick := step_waitKey_of_no_key running fetched
      fun j hj => (pressed_eq_false_iff s hj).mpr (none_down j hj)
    obtain rfl : t = s.endTick := Host.Outcome.next.inj (ticked.symm.trans held)
    exact ⟨State.endTick_pc s, State.endTick_getV s x⟩

/-- Settles O49: `LoadDT` is one write of `V[x]`, of the `DT` that the tick then counts down. -/
theorem loadDTReadsTheTimer : Obligations.LoadDTReadsTheTimer := by
  intro x
  refine ⟨decodeWord_classF x 0x07#8, fun s => ?_, fun s running fetched => ?_⟩
  · exact ⟨_, rfl, State.getV_setV_self s x s.dt, setV_onlyRegs s x s.dt⟩
  · exact ⟨_, step_loadDT running fetched, State.getV_setV_self s.advancePc x s.dt,
      countDown_toNat s.dt⟩

/-- Settles O50: each of the two is one write of its timer, and the tick then counts both down. -/
theorem setTimersCopyTheRegister : Obligations.SetTimersCopyTheRegister := by
  intro x
  refine ⟨decodeWord_classF x 0x15#8, decodeWord_classF x 0x18#8, fun s => ⟨?_, ?_⟩,
    fun s running => ⟨fun fetched => ?_, fun fetched => ?_⟩⟩
  · exact ⟨_, rfl, rfl, rfl, setDT_onlyTimers s (s.getV x)⟩
  · exact ⟨_, rfl, rfl, rfl, setST_onlyTimers s (s.getV x)⟩
  · exact ⟨_, step_setDT running fetched, countDown_toNat (s.getV x), countDown_toNat s.st⟩
  · exact ⟨_, step_setST running fetched, countDown_toNat (s.getV x), countDown_toNat s.dt⟩

end Sys2Proof.Proofs
end

section
/-! SUPPORT. Proofs about the decoder, the encoder and the opcode map (30_encoding.md). -/

namespace Sys2Proof.Proofs

/-! ### Decoding undoes encoding -/

theorem decodeWord_ret : decodeWord 0x00EE#16 = .ret := by decide

theorem decodeWord_call (nnn : Addr12) : decodeWord (wordNnn 0x2#4 nnn) = .call nnn := by
  rw [decodeWord_of_not_exact (not_exact_of_class (by simp))]
  simp

theorem decodeWord_jumpV0 (nnn : Addr12) : decodeWord (wordNnn 0xB#4 nnn) = .jumpV0 nnn := by
  rw [decodeWord_of_not_exact (not_exact_of_class (by simp))]
  simp

theorem decodeWord_rand (x : Nibble) (kk : Byte) :
    decodeWord (wordXkk 0xC#4 x kk) = .rand x kk := by
  rw [decodeWord_of_not_exact (not_exact_of_class (by simp))]
  simp

theorem decodeWord_draw (x y n : Nibble) :
    decodeWord (wordXyn 0xD#4 x y n) = .draw x y n := by
  rw [decodeWord_of_not_exact (not_exact_of_class (by simp))]
  simp

/-- A word of class E is decided by its low byte (R65). -/
theorem decodeWord_classE (x : Nibble) (kk : Byte) :
    decodeWord (wordXkk 0xE#4 x kk) = decodeClassE x kk := by
  rw [decodeWord_of_not_exact (not_exact_of_class (by simp))]
  simp

theorem wellFormed_sys_iff (nnn : Addr12) :
    (Instr.sys nnn).WellFormed ↔ nnn ≠ 0x0E0#12 ∧ nnn ≠ 0x0EE#12 := by
  simp [Instr.WellFormed, Instr.wellFormed]

/-- Decoding undoes encoding, each family by the lemma about its class of words (R72). -/
theorem decodeWord_encode {i : Instr} (well_formed : i.WellFormed) : decodeWord (encode i) = i := by
  cases i with
  | cls => exact decodeWord_cls
  | ret => exact decodeWord_ret
  | noOp => decide
  | sys nnn =>
    obtain ⟨not_cls, not_ret⟩ := (wellFormed_sys_iff nnn).mp well_formed
    exact decodeWord_sys not_cls not_ret
  | jump nnn => exact decodeWord_jump nnn
  | call nnn => exact decodeWord_call nnn
  | loadI nnn => exact decodeWord_loadI nnn
  | jumpV0 nnn => exact decodeWord_jumpV0 nnn
  | skipEqByte x kk => exact decodeWord_skipEqByte x kk
  | skipNeByte x kk => exact decodeWord_skipNeByte x kk
  | loadByte x kk => exact decodeWord_loadByte x kk
  | addByte x kk => exact decodeWord_addByte x kk
  | rand x kk => exact decodeWord_rand x kk
  | draw x y n => exact decodeWord_draw x y n
  | skipEqReg x y => exact decodeWord_class5 x y 0#4
  | skipNeReg x y => exact decodeWord_class9 x y 0#4
  | loadReg x y | orReg x y | andReg x y | xorReg x y | addReg x y | subReg x y | shrReg x y
  | subnReg x y | shlReg x y => exact decodeWord_class8 x y _
  | skipIfKey x | skipIfNotKey x => exact decodeWord_classE x _
  | loadDT x | waitKey x | setDT x | setST x | addI x | loadSprite x | bcd x | dumpRegs x
  | loadRegs x => exact decodeWord_classF x _

/-- The two bytes of a word in memory order decode as the word, and what is behind them remains. -/
theorem decodeBytes_bytesOfWord (w : Word) (rest : List Byte) :
    decodeBytes (bytesOfWord w ++ rest) = .ok (decodeWord w, rest) :=
  congrArg (fun v => Except.ok (decodeWord v, rest)) (wordOfBytes_bytes w)

/-- Only `Sys` of one of the two exact words is ill formed (R72). -/
theorem wellFormed_of_encode_not_exact {i : Instr}
    (not_exact : encode i ≠ 0x00E0#16 ∧ encode i ≠ 0x00EE#16) : i.WellFormed := by
  cases i with
  | sys nnn =>
    obtain ⟨not_cls, not_ret⟩ := not_exact
    refine (wellFormed_sys_iff nnn).mpr ⟨?_, ?_⟩
    · rintro rfl; exact not_cls (by decide)
    · rintro rfl; exact not_ret (by decide)
  | _ => rfl

/-! ### A row of the opcode map undoes the encoder on the words it matches (R62 to R64) -/

/-- What the row takes out of a matching word encodes to that word. -/
def EncodesBack (row : TableRow) : Prop :=
  ∀ op, row.matches op = true → encode (row.variant op) = op

theorem TableRow.and_mask_of_matches {row : TableRow} {op : Word} (matched : row.matches op = true) :
    op &&& row.mask = row.value := beq_iff_eq.mp matched

theorem exactRow_encodesBack {i : Instr} : EncodesBack ⟨0xFFFF#16, encode i, fun _ => i⟩ := by
  intro op matched
  have is_value : op &&& BitVec.allOnes 16 = encode i := TableRow.and_mask_of_matches matched
  rw [BitVec.and_allOnes] at is_value
  exact is_value.symm

theorem rowNnn_encodesBack {value : Word} {make : Addr12 → Instr}
    (encoded : ∀ nnn, encode (make nnn) = wordNnn (fieldClass value) nnn) :
    EncodesBack (rowNnn value make) := by
  intro op matched
  have masked : op &&& 0xF000#16 = value := TableRow.and_mask_of_matches matched
  have same_class : fieldClass value = fieldClass op := by
    rw [← masked, and_maskClass, fieldClass_wordNnn]
  calc encode (make (fieldNnn op)) = wordNnn (fieldClass op) (fieldNnn op) := by
        rw [encoded, same_class]
    _ = op := wordNnn_fields op

theorem rowXkk_encodesBack {value : Word} {make : Nibble → Byte → Instr}
    (encoded : ∀ x kk, encode (make x kk) = wordXkk (fieldClass value) x kk) :
    EncodesBack (rowXkk value make) := by
  intro op matched
  have masked : op &&& 0xF000#16 = value := TableRow.and_mask_of_matches matched
  have same_class : fieldClass value = fieldClass op := by
    rw [← masked, and_maskClass, fieldClass_wordNnn]
  calc encode (make (fieldX op) (fieldKk op))
      = wordXkk (fieldClass op) (fieldX op) (fieldKk op) := by rw [encoded, same_class]
    _ = op := wordXkk_fields op

theorem drawRow_encodesBack :
    EncodesBack ⟨0xF000#16, 0xD000#16, fun op => .draw (fieldX op) (fieldY op) (fieldN op)⟩ := by
  intro op matched
  have masked : op &&& 0xF000#16 = 0xD000#16 := TableRow.and_mask_of_matches matched
  have is_draw : fieldClass op = 0xD#4 := by
    rw [← fieldClass_wordNnn (fieldClass op) 0#12, ← and_maskClass, masked]
    decide
  calc encode (.draw (fieldX op) (fieldY op) (fieldN op))
      = wordXyn (fieldClass op) (fieldX op) (fieldY op) (fieldN op) := by rw [is_draw, encode]
    _ = op := wordXyn_fields op

theorem rowXy_encodesBack {value : Word} {make : Nibble → Nibble → Instr}
    (encoded : ∀ x y, encode (make x y) = wordXyn (fieldClass value) x y (fieldN value)) :
    EncodesBack (rowXy value make) := by
  intro op matched
  have masked : op &&& 0xF00F#16 = value := TableRow.and_mask_of_matches matched
  have same_class : fieldClass value = fieldClass op := by
    rw [← masked, and_maskNibble, fieldClass_wordXyn]
  have same_n : fieldN value = fieldN op := by rw [← masked, and_maskNibble, fieldN_wordXyn]
  calc encode (make (fieldX op) (fieldY op))
      = wordXyn (fieldClass op) (fieldX op) (fieldY op) (fieldN op) := by
        rw [encoded, same_class, same_n]
    _ = op := wordXyn_fields op

theorem rowX_encodesBack {value : Word} {make : Nibble → Instr}
    (encoded : ∀ x, encode (make x) = wordXkk (fieldClass value) x (fieldKk value)) :
    EncodesBack (rowX value make) := by
  intro op matched
  have masked : op &&& 0xF0FF#16 = value := TableRow.and_mask_of_matches matched
  have same_class : fieldClass value = fieldClass op := by
    rw [← masked, and_maskByte, fieldClass_wordXkk]
  have same_kk : fieldKk value = fieldKk op := by rw [← masked, and_maskByte, fieldKk_wordXkk]
  calc encode (make (fieldX op)) = wordXkk (fieldClass op) (fieldX op) (fieldKk op) := by
        rw [encoded, same_class, same_kk]
    _ = op := wordXkk_fields op

/-- Every row of the opcode map, format by format. -/
theorem encodesBack_of_mem_opcodeTable : ∀ row ∈ opcodeTable, EncodesBack row := by
  simp only [opcodeTable, List.forall_mem_append, List.forall_mem_cons, List.not_mem_nil,
    false_imp_iff, forall_true_iff, and_true]
  refine ⟨⟨⟨⟨exactRow_encodesBack (i := .cls), exactRow_encodesBack (i := .ret)⟩, ?nnnAndXkk⟩, ?xy⟩,
    ?x⟩
  case nnnAndXkk =>
    exact ⟨rowNnn_encodesBack fun _ => rfl, rowNnn_encodesBack fun _ => rfl,
      rowNnn_encodesBack fun _ => rfl, rowXkk_encodesBack fun _ _ => rfl,
      rowXkk_encodesBack fun _ _ => rfl, rowXkk_encodesBack fun _ _ => rfl,
      rowXkk_encodesBack fun _ _ => rfl, rowNnn_encodesBack fun _ => rfl,
      rowNnn_encodesBack fun _ => rfl, rowXkk_encodesBack fun _ _ => rfl, drawRow_encodesBack⟩
  case xy =>
    refine ⟨?_, ?_, ?_, ?_, ?_, ?_, ?_, ?_, ?_, ?_, ?_⟩ <;>
      exact rowXy_encodesBack fun _ _ => rfl
  case x =>
    refine ⟨?_, ?_, ?_, ?_, ?_, ?_, ?_, ?_, ?_, ?_, ?_⟩ <;>
      exact rowX_encodesBack fun _ => rfl

/-! ### The walk of the opcode map (R63) -/

/-- All that the walk of the opcode map can find. -/
theorem walkTable_cases (op : Word) :
    (∃ row ∈ opcodeTable, row.matches op = true ∧ walkTable op = row.variant op) ∨
      (Unmatched op ∧ walkTable op = .noOp) := by
  unfold walkTable
  cases found : opcodeTable.find? (fun row => row.matches op) with
  | none =>
    have unmatched : Unmatched op := fun row listed masked =>
      List.find?_eq_none.mp found row listed (beq_iff_eq.mpr masked)
    exact .inr ⟨unmatched, rfl⟩
  | some row => exact .inl ⟨row, List.mem_of_find?_eq_some found, (List.find?_some found :), rfl⟩

/-- Apart from the two exact words, any matching row decides, first or not: what it takes out of the
word encodes back to the word, and decoding undoes that. -/
theorem decodeWord_of_row {op : Word} {row : TableRow}
    (not_exact : op ≠ 0x00E0#16 ∧ op ≠ 0x00EE#16) (listed : row ∈ opcodeTable)
    (matched : row.matches op = true) : decodeWord op = row.variant op := by
  have back : encode (row.variant op) = op := encodesBack_of_mem_opcodeTable row listed op matched
  have well_formed : (row.variant op).WellFormed :=
    wellFormed_of_encode_not_exact (back.symm ▸ not_exact)
  rw [← decodeWord_encode well_formed, back]

theorem decodeWord_eq_walkTable (op : Word) : decodeWord op = walkTable op := by
  by_cases not_exact : op ≠ 0x00E0#16 ∧ op ≠ 0x00EE#16
  · obtain ⟨row, listed, matched, walked⟩ | ⟨unmatched, walked⟩ := walkTable_cases op
    · rw [walked, decodeWord_of_row not_exact listed matched]
    · rw [walked, unmatched.decodeWord_eq]
  · obtain rfl | rfl : op = 0x00E0#16 ∨ op = 0x00EE#16 := by tauto
    · decide
    · decide

/-- Encoding undoes decoding: the word has a row, which encodes back. -/
theorem encode_decodeWord {w : Word} (not_noOp : decodeWord w ≠ .noOp) :
    encode (decodeWord w) = w := by
  rw [decodeWord_eq_walkTable] at not_noOp ⊢
  obtain ⟨row, listed, matched, walked⟩ | ⟨-, walked⟩ := walkTable_cases w
  · rw [walked, encodesBack_of_mem_opcodeTable row listed w matched]
  · exact absurd walked not_noOp

theorem decodeWord_wellFormed (w : Word) : (decodeWord w).WellFormed := by
  by_cases is_noOp : decodeWord w = .noOp
  · rw [is_noOp]; rfl
  by_cases not_exact : w ≠ 0x00E0#16 ∧ w ≠ 0x00EE#16
  · exact wellFormed_of_encode_not_exact (by rwa [encode_decodeWord is_noOp])
  · obtain rfl | rfl : w = 0x00E0#16 ∨ w = 0x00EE#16 := by tauto
    · decide
    · decide

/-! ### Which rows overlap (R63, R64) -/

/-- Two rows that match one word agree on the bits both masks select. -/
theorem TableRow.overlap_of_matches {ra rb : TableRow} {op : Word} (matched : ra.matches op = true)
    (matched' : rb.matches op = true) : ra.value &&& rb.mask = rb.value &&& ra.mask := by
  rw [← TableRow.and_mask_of_matches matched, ← TableRow.and_mask_of_matches matched',
    BitVec.and_assoc, BitVec.and_assoc, BitVec.and_comm ra.mask]

/-- The rows that agree on the bits both masks select: row 0 or 1 with row 2. -/
theorem opcodeTable_overlap : ∀ a b : Fin 35, a < b →
    (opcodeTable[a]).value &&& (opcodeTable[b]).mask =
      (opcodeTable[b]).value &&& (opcodeTable[a]).mask →
    a.val < 2 ∧ b.val = 2 := by
  decide

/-! ### The `NoOp` space (R66) -/

theorem decodeClass8_eq_noOp_iff (x y n : Nibble) : decodeClass8 x y n = .noOp ↔
    n ∈ [0x8#4, 0x9#4, 0xA#4, 0xB#4, 0xC#4, 0xD#4, 0xF#4] := by
  rcases nibble_cases n with h | h | h | h | h | h | h | h | h | h | h | h | h | h | h | h <;>
    simp [h, decodeClass8]

theorem decodeClassE_eq_noOp_iff (x : Nibble) (kk : Byte) : decodeClassE x kk = .noOp ↔
    kk ∉ [0x9E#8, 0xA1#8] := by
  unfold decodeClassE
  split
  case h_3 not_skipIfKey not_skipIfNotKey => simpa using ⟨not_skipIfKey, not_skipIfNotKey⟩
  all_goals simp

theorem decodeClassF_eq_noOp_iff (x : Nibble) (kk : Byte) : decodeClassF x kk = .noOp ↔
    kk ∉ [0x07#8, 0x0A#8, 0x15#8, 0x18#8, 0x1E#8, 0x29#8, 0x33#8, 0x55#8, 0x65#8] := by
  unfold decodeClassF
  split
  case h_10 h1 h2 h3 h4 h5 h6 h7 h8 h9 => simpa using ⟨h1, h2, h3, h4, h5, h6, h7, h8, h9⟩
  all_goals simp

/-! ### The statements -/

/-- Settles O2: decoding undoes encoding by the word of each instruction, and a word that decodes is
one that a row of the opcode map encodes back. -/
theorem decodeEncodeRoundTrip : Obligations.DecodeEncodeRoundTrip := by
  refine ⟨fun i well_formed => ⟨decodeWord_encode well_formed, fun rest => ?_⟩,
    fun w not_noOp => encode_decodeWord not_noOp, decodeWord_wellFormed⟩
  rw [decodeBytes_bytesOfWord, decodeWord_encode well_formed]

/-- Settles O3: any matching row decides but on the two exact words, and rows that overlap at all
are row 0 or 1 with row 2. -/
theorem decoderIsOpcodeTableWalk : Obligations.DecoderIsOpcodeTableWalk := by
  refine ⟨decodeWord_eq_walkTable, fun a b ra rb op earlier at_a at_b matched matched' => ?_⟩
  obtain ⟨below_a, rfl⟩ := List.getElem?_eq_some_iff.mp at_a
  obtain ⟨below_b, rfl⟩ := List.getElem?_eq_some_iff.mp at_b
  exact opcodeTable_overlap ⟨a, below_a⟩ ⟨b, below_b⟩ earlier
    (TableRow.overlap_of_matches matched matched')

/-- Settles O4: a word's class either has no `NoOp` at all or leaves it to the sub-operation. -/
theorem noOpSpaceIsExact : Obligations.NoOpSpaceIsExact := by
  intro op
  by_cases not_exact : op ≠ 0x00E0#16 ∧ op ≠ 0x00EE#16
  · rw [decodeWord_of_not_exact not_exact]
    rcases nibble_cases (fieldClass op) with h | h | h | h | h | h | h | h | h | h | h | h | h | h |
      h | h <;>
      simp [h, decodeClass8_eq_noOp_iff, decodeClassE_eq_noOp_iff, decodeClassF_eq_noOp_iff]
  · obtain rfl | rfl : op = 0x00E0#16 ∨ op = 0x00EE#16 := by tauto
    · decide
    · decide

/-- Settles O1, by evaluating the decoder on the listed words. -/
theorem specWordsDecodeAsListed : Obligations.SpecWordsDecodeAsListed := by
  unfold Obligations.SpecWordsDecodeAsListed
  decide

end Sys2Proof.Proofs
end

section
/-! SUPPORT. Proofs about the stack instructions and `JumpV0` (41_control_flow.md R93 to R95). -/

namespace Sys2Proof.Proofs

open Sys2Proof.Machine Sys2Proof.Safety

/-! ### `Call` and `Ret` where the stack lets them -/

/-- The state `Call` leaves below depth 16 (R93). -/
def afterCall (nnn : Addr12) (s : State) (room : s.sp.val < 16) : State :=
  { s with stack := s.stack.set s.sp.val s.pc room, sp := ⟨s.sp.val + 1, by omega⟩,
           pc := immAddr nnn }

/-- The state `Ret` leaves above depth 0 (R94). -/
def afterRet (s : State) (top : s.sp.val - 1 < 16) : State :=
  { s with sp := ⟨s.sp.val - 1, by omega⟩, pc := s.stack[s.sp.val - 1] }

theorem exec_call_of_room (nnn : Addr12) {s : State} (room : s.sp.val < 16) :
    exec (.call nnn) s = .next (afterCall nnn s room) := by
  obtain ⟨full, -⟩ | ⟨_, called⟩ := execCall_cases nnn s
  · omega
  · exact called

theorem exec_call_of_full (nnn : Addr12) {s : State} (full : s.sp.val = 16) :
    exec (.call nnn) s = .next (s.takeFault .stackOverflow) := by
  obtain ⟨-, overflowed⟩ | ⟨room, -⟩ := execCall_cases nnn s
  · exact overflowed
  · omega

theorem exec_ret_of_pos {s : State} (pos : 0 < s.sp.val) (top : s.sp.val - 1 < 16) :
    exec .ret s = .next (afterRet s top) := by
  obtain ⟨empty, -⟩ | ⟨_, -, returned⟩ := execRet_cases s
  · omega
  · exact returned

theorem exec_ret_of_empty {s : State} (empty : s.sp.val = 0) :
    exec .ret s = .next (s.takeFault .stackUnderflow) := by
  obtain ⟨-, underflowed⟩ | ⟨-, pos, -⟩ := execRet_cases s
  · exact underflowed
  · omega

theorem afterCall_onlyPcAndStack (nnn : Addr12) (s : State) (room : s.sp.val < 16) :
    OnlyPcAndStack s (afterCall nnn s room) :=
  ⟨fun _ _ => rfl, fun _ _ _ => rfl, rfl, fun _ => rfl, ⟨rfl, rfl⟩, ⟨rfl, rfl⟩, ⟨rfl, rfl⟩⟩

theorem afterRet_onlyPcAndStack (s : State) (top : s.sp.val - 1 < 16) :
    OnlyPcAndStack s (afterRet s top) :=
  ⟨fun _ _ => rfl, fun _ _ _ => rfl, rfl, fun _ => rfl, ⟨rfl, rfl⟩, ⟨rfl, rfl⟩, ⟨rfl, rfl⟩⟩

/-! ### The target of `JumpV0` -/

/-- The target never wraps: it is at most 0xFFF + 0xFF. -/
theorem jumpV0_target_toNat (nnn : Addr12) (b : Byte) :
    (immAddr nnn + zext16 b).toNat = nnn.toNat + b.toNat := by
  have offset : (zext16 b).toNat = b.toNat := BitVec.toNat_setWidth_of_le (by decide)
  have nnn_bound := nnn.isLt
  have byte_bound := b.isLt
  rw [BitVec.toNat_add, immAddr_toNat, offset, Nat.mod_eq_of_lt (by omega)]

/-! ### The statements -/

/-- Settles O22: the two cases of a push. -/
theorem callPushesOrOverflows : Obligations.CallPushesOrOverflows := by
  intro nnn
  refine ⟨decodeWord_call nnn, fun s room => ?_, fun s full => exec_call_of_full nnn full⟩
  refine ⟨_, exec_call_of_room nnn room, immAddr_toNat nnn, rfl, ?_, fun j below other => ?_,
    afterCall_onlyPcAndStack nnn s room⟩
  · exact Vector.getElem_set_self room
  · exact Vector.getElem_set_ne room below other.symm

/-- Settles O23: the two cases of a pop. -/
theorem retPopsOrUnderflows : Obligations.RetPopsOrUnderflows :=
  ⟨decodeWord_ret, fun s top pos => ⟨_, exec_ret_of_pos pos top, rfl, rfl, rfl,
    afterRet_onlyPcAndStack s top⟩, fun _ empty => exec_ret_of_empty empty⟩

/-- Settles O24: the pop reads the entry that the push wrote. -/
theorem retReturnsBehindTheCall : Obligations.RetReturnsBehindTheCall := by
  intro nnn s t u room called same_stack same_sp
  obtain rfl : afterCall nnn s room = t :=
    Host.Outcome.next.inj ((exec_call_of_room nnn room).symm.trans called)
  have depth : u.sp.val = s.sp.val + 1 := congrArg Fin.val same_sp
  have returned : exec .ret u = .next (afterRet u (by omega)) := exec_ret_of_pos (by omega) (by omega)
  refine ⟨_, returned, ?_, Fin.ext (by simp [afterRet, depth])⟩
  simp [afterRet, depth, same_stack, afterCall]

/-- Settles O25: `JumpV0` is one write of `pc`, of a sum that fits. -/
theorem jumpV0AddsV0 : Obligations.JumpV0AddsV0 := by
  intro nnn
  exact ⟨decodeWord_jumpV0 nnn, fun s =>
    ⟨_, rfl, jumpV0_target_toNat nnn (s.getV 0#4), setPc_onlyPc s _⟩⟩

end Sys2Proof.Proofs
end

section
/-! SUPPORT. Proofs about the ALU instructions that write a flag, and about `Rand` (42_alu.md R106 to
R113). -/

namespace Sys2Proof.Proofs

open Sys2Proof.Machine Sys2Proof.Safety

/-! ### What a change of `v` alone leaves unchanged -/

theorem onlyRegs_of_sameRegs {written : Nibble → Prop} {s : State} {v : Vector Byte 16}
    (same_regs : SameRegs written s { s with v := v }) : OnlyRegs written s { s with v := v } :=
  ⟨same_regs, ⟨fun _ _ _ => rfl, rfl, rfl, ⟨rfl, rfl⟩, fun _ => rfl, ⟨rfl, rfl⟩, ⟨rfl, rfl⟩⟩,
    ⟨rfl, rfl⟩⟩

/-! ### What a flagged write does (00_scope.md R6) -/

theorem writeFlagged_onlyRegs (s : State) (flag : Bool) (x : Nibble) (b : Byte) :
    OnlyRegs (fun j => j = x ∨ j = 15#4) s (s.writeFlagged flag x b) := by
  refine onlyRegs_of_sameRegs (v := (s.writeFlagged flag x b).v) fun j other => ?_
  obtain ⟨not_x, not_vf⟩ := not_or.mp other
  exact (State.getV_writeFlagged s flag x j b).trans ((if_neg not_x).trans (if_neg not_vf))

theorem getV_writeFlagged_self (s : State) (flag : Bool) (x : Nibble) (b : Byte) :
    (s.writeFlagged flag x b).getV x = b := by
  rw [State.getV_writeFlagged, if_pos rfl]

theorem getV_writeFlagged_vf (s : State) (flag : Bool) {x : Nibble} (b : Byte) (not_vf : x ≠ 15#4) :
    ((s.writeFlagged flag x b).getV 15#4).toNat = flag.toNat := by
  rw [State.getV_writeFlagged, if_neg not_vf.symm, if_pos (show 15#4 = vf from rfl)]
  cases flag <;> rfl

/-! ### The flags as numbers -/

theorem toNat_decide (p : Prop) [Decidable p] : (decide p).toNat = if p then 1 else 0 := by
  by_cases holds : p <;> simp [holds]

theorem carry_toNat (a b : Byte) :
    (carry a b).toNat = if a.toNat + b.toNat > 255 then 1 else 0 := toNat_decide _

theorem noBorrow_toNat (minuend subtrahend : Byte) :
    (noBorrow minuend subtrahend).toNat = if minuend.toNat > subtrahend.toNat then 1 else 0 :=
  toNat_decide _

theorem lowBit_toNat (a : Byte) : (lowBit a).toNat = a.toNat % 2 := by
  rw [lowBit, BitVec.getLsbD, Nat.toNat_testBit, Nat.pow_zero, Nat.div_one]

theorem highBit_toNat (a : Byte) : (highBit a).toNat = a.toNat / 128 := by
  have bound := a.isLt
  rw [highBit, BitVec.getLsbD, Nat.toNat_testBit]
  omega

/-! ### The results as numbers -/

theorem sub_toNat_eq_emod (a b : Byte) :
    ((a - b).toNat : Int) = (a.toNat - b.toNat : Int) % 256 := by
  have bound := b.isLt
  rw [BitVec.toNat_sub]
  omega

/-! ### The statements -/

/-- Settles O32: `AddReg` is one flagged write, of the sum and its carry. -/
theorem addRegSumAndCarry : Obligations.AddRegSumAndCarry := by
  intro x y
  refine ⟨decodeWord_class8 x y 0x4#4, fun s => ⟨_, rfl, ?_, fun not_vf => ?_,
    writeFlagged_onlyRegs s _ x _⟩⟩
  · rw [getV_writeFlagged_self, BitVec.toNat_add]
  · rw [getV_writeFlagged_vf s _ _ not_vf, carry_toNat]

/-- Settles O33: each of the two is one flagged write, of the difference and the strict comparison. -/
theorem subtractionsAndStrictNoBorrow : Obligations.SubtractionsAndStrictNoBorrow := by
  intro x y
  refine ⟨decodeWord_class8 x y 0x5#4, decodeWord_class8 x y 0x7#4, fun s =>
    ⟨⟨_, rfl, ?_, fun not_vf => ?_, writeFlagged_onlyRegs s _ x _⟩,
      ⟨_, rfl, ?_, fun not_vf => ?_, writeFlagged_onlyRegs s _ x _⟩⟩⟩
  · rw [getV_writeFlagged_self, sub_toNat_eq_emod]
  · rw [getV_writeFlagged_vf s _ _ not_vf, noBorrow_toNat]
  · rw [getV_writeFlagged_self, sub_toNat_eq_emod]
  · rw [getV_writeFlagged_vf s _ _ not_vf, noBorrow_toNat]

/-- Settles O34: each of the two is one flagged write, of the shifted byte and the bit moved out. -/
theorem shiftsByOneInPlace : Obligations.ShiftsByOneInPlace := by
  intro x y
  refine ⟨decodeWord_class8 x y 0x6#4, decodeWord_class8 x y 0xE#4, fun s =>
    ⟨⟨_, rfl, ?_, fun not_vf => ?_, writeFlagged_onlyRegs s _ x _⟩,
      ⟨_, rfl, ?_, fun not_vf => ?_, writeFlagged_onlyRegs s _ x _⟩⟩⟩
  · rw [getV_writeFlagged_self, BitVec.toNat_ushiftRight, Nat.shiftRight_one]
  · rw [getV_writeFlagged_vf s _ _ not_vf, lowBit_toNat]
  · rw [getV_writeFlagged_self, BitVec.toNat_shiftLeft, Nat.shiftLeft_eq, Nat.mul_comm]
  · rw [getV_writeFlagged_vf s _ _ not_vf, highBit_toNat]

/-- Settles O35: `Rand` is one write of `V[x]`, after the count of a free byte if it takes one. -/
theorem randMasksTheTicksByte : Obligations.RandMasksTheTicksByte := by
  intro x kk
  refine ⟨decodeWord_rand x kk, fun s rnd later fixed => ?_, fun s free => ?_⟩
  · have executed : exec (.rand x kk) s = .next (s.setV x (rnd &&& kk)) := by
      simp only [exec, execRand, State.countDraw, State.rnd, fixed]
    exact ⟨_, executed, State.getV_setV_self s x _, setV_onlyRegs s x _⟩
  · have executed : exec (.rand x kk) s =
        .next ({ s with draws := s.draws + 1 }.setV x (Config.rnd s.draws &&& kk)) := by
      simp only [exec, execRand, State.countDraw, State.rnd, free]
    obtain ⟨same_regs, same_rest, -⟩ :=
      setV_onlyRegs { s with draws := s.draws + 1 } x (Config.rnd s.draws &&& kk)
    exact ⟨_, executed, State.getV_setV_self _ x _, same_regs, same_rest, free, rfl⟩

end Sys2Proof.Proofs
end

section
/-! SUPPORT. Proofs about `AddI` and the bulk transfers between registers and memory
(43_index_memory.md R121 to R125), and about `load` (60_exceptions.md R163). -/

namespace Sys2Proof.Proofs

open Sys2Proof.Machine Sys2Proof.Safety

/-! ### What a run of byte writes leaves unchanged -/

/-- A run of byte writes changes `mem` only, and there only the bytes it names. -/
theorem writeBytes_onlyBytes {written : Nat → Prop} (s : State) (a : Nat) (bs : List Byte)
    (names : ∀ k < bs.length, written ((a + k) % 4096)) :
    OnlyBytes written s (s.writeBytes a bs) := by
  have same_bytes : SameBytes written s (s.writeBytes a bs) := fun c below not_written =>
    State.readByte_writeBytes_outside s a c bs fun k hk at_k =>
      not_written (by rw [← Nat.mod_eq_of_lt below, at_k]; exact names k hk)
  rw [State.writeBytes_eq] at same_bytes ⊢
  exact ⟨fun _ _ => rfl, same_bytes, rfl, rfl, ⟨rfl, rfl⟩, fun _ => rfl, ⟨rfl, rfl⟩, ⟨rfl, rfl⟩,
    ⟨rfl, rfl⟩⟩

/-! ### `Bcd` -/

/-- Each digit of a byte fits into a byte (R123). -/
theorem digit_toNat {d : Nat} (small : d < 256) : (BitVec.ofNat 8 d).toNat = d := by
  rw [BitVec.toNat_ofNat, Nat.mod_eq_of_lt small]

theorem readByte_bcd (s : State) (a k : Nat) (b : Byte) (digit : k < 3) :
    (s.writeBytes a (bcdDigits b)).readByte ((a + k) % 4096) = (bcdDigits b)[k]'digit := by
  rw [State.readByte_mod,
    State.readByte_writeBytes_inside s a k (bcdDigits b) (by simp [bcdDigits]) digit]

/-! ### `DumpRegs` and `LoadRegs` -/

/-- The state `DumpRegs` leaves (R124). -/
def afterDump (x : Nibble) (s : State) : State := s.writeBytes s.i.toNat (s.regsUpTo x)

/-- The state `LoadRegs` leaves (R125). -/
def afterLoadRegs (x : Nibble) (s : State) : State := s.setRegs 0 (s.bytesAtI (x.toNat + 1))

theorem exec_dumpRegs (x : Nibble) (s : State) : exec (.dumpRegs x) s = .next (afterDump x s) := rfl

theorem exec_loadRegs (x : Nibble) (s : State) :
    exec (.loadRegs x) s = .next (afterLoadRegs x s) := rfl

theorem readByte_afterDump {x k : Nibble} (s : State) (listed : k.toNat ≤ x.toNat) :
    (afterDump x s).readByte (s.i.toNat + k.toNat) = s.getV k := by
  have bound := x.isLt
  rw [afterDump, State.readByte_writeBytes_inside s _ k.toNat _ (by simp; omega) (by simp; omega),
    State.regsUpTo_get, regIndex_toNat]

theorem afterDump_onlyBytes (x : Nibble) (s : State) :
    OnlyBytes (fun a => ∃ k, k ≤ x.toNat ∧ a = (s.i.toNat + k) % 4096) s (afterDump x s) := by
  refine writeBytes_onlyBytes s s.i.toNat (s.regsUpTo x) fun k listed => ⟨k, ?_, rfl⟩
  rw [State.regsUpTo_length] at listed
  exact Nat.le_of_lt_succ listed

theorem getV_afterLoadRegs (x j : Nibble) (s : State) : (afterLoadRegs x s).getV j =
    if j.toNat ≤ x.toNat then s.readByte (s.i.toNat + j.toNat) else s.getV j := by
  have bound := x.isLt
  rw [afterLoadRegs, State.getV_setRegs s 0 _ (by simp; omega)]
  by_cases listed : j.toNat ≤ x.toNat
  · rw [dif_pos (by simp; omega), if_pos listed, State.bytesAtI_get, Nat.sub_zero]
  · rw [dif_neg (by simp; omega), if_neg listed]

theorem afterLoadRegs_onlyRegs (x : Nibble) (s : State) :
    OnlyRegs (fun j => j.toNat ≤ x.toNat) s (afterLoadRegs x s) := by
  have same_regs : SameRegs (fun j => j.toNat ≤ x.toNat) s (afterLoadRegs x s) := fun j other => by
    rw [getV_afterLoadRegs, if_neg other]
  rw [afterLoadRegs, State.setRegs_eq] at same_regs ⊢
  exact onlyRegs_of_sameRegs same_regs

/-! ### The statements -/

/-- Settles O37: `AddI` is one write of `I`, of a sum that wraps mod 65536. -/
theorem addIWrapsWithoutFlag : Obligations.AddIWrapsWithoutFlag := by
  intro x
  refine ⟨decodeWord_classF x 0x1E#8, fun s => ⟨_, rfl, ?_, setI_onlyIndex s _⟩⟩
  have offset : (zext16 (s.getV x)).toNat = (s.getV x).toNat :=
    BitVec.toNat_setWidth_of_le (by decide)
  rw [State.setI_i, BitVec.toNat_add, offset]

/-- Settles O39: `Bcd` is one run of three byte writes at `I`. -/
theorem bcdStoresThreeDigits : Obligations.BcdStoresThreeDigits := by
  intro x
  refine ⟨decodeWord_classF x 0x33#8, fun s => ⟨_, rfl, ?_, ?_, ?_,
    writeBytes_onlyBytes s s.i.toNat _ fun k digit => ⟨k, digit, rfl⟩⟩⟩
  all_goals have bound := (s.getV x).isLt
  · exact (congrArg BitVec.toNat (readByte_bcd s s.i.toNat 0 (s.getV x) (by decide))).trans
      (digit_toNat (by omega))
  · exact (congrArg BitVec.toNat (readByte_bcd s s.i.toNat 1 (s.getV x) (by decide))).trans
      (digit_toNat (by omega))
  · exact (congrArg BitVec.toNat (readByte_bcd s s.i.toNat 2 (s.getV x) (by decide))).trans
      (digit_toNat (by omega))

/-- Settles O40: `DumpRegs` is one run of byte writes at `I`, in register order. -/
theorem dumpRegsStoresTheRegisters : Obligations.DumpRegsStoresTheRegisters := by
  intro x
  refine ⟨decodeWord_classF x 0x55#8, fun s =>
    ⟨_, exec_dumpRegs x s, fun k listed => ?_, afterDump_onlyBytes x s⟩⟩
  rw [State.readByte_mod, readByte_afterDump s listed]

/-- Settles O41: `LoadRegs` is one run of register writes, of the bytes at `I` in register order. -/
theorem loadRegsLoadsTheRegisters : Obligations.LoadRegsLoadsTheRegisters := by
  intro x
  refine ⟨decodeWord_classF x 0x65#8, fun s =>
    ⟨_, exec_loadRegs x s, fun k listed => ?_, afterLoadRegs_onlyRegs x s⟩⟩
  rw [State.readByte_mod, getV_afterLoadRegs, if_pos listed]

/-- Settles O42: the load reads at `I + k` what the dump stored there. -/
theorem dumpThenLoadRestores : Obligations.DumpThenLoadRestores := by
  intro x s t u dumped same_i same_bytes
  obtain rfl : afterDump x s = t := Host.Outcome.next.inj dumped
  obtain ⟨-, -, kept_i, -⟩ := afterDump_onlyBytes x s
  refine ⟨_, exec_loadRegs x u, fun k listed => ?_⟩
  rw [getV_afterLoadRegs, if_pos listed, same_i, same_bytes _ listed, kept_i,
    readByte_afterDump s listed]

/-- Settles O43: the bytes at `pc` and `pc + 1` are those at `I` and `I + 1`, which the dump wrote. -/
theorem fetchSeesAnEarlierStore : Obligations.FetchSeesAnEarlierStore := by
  intro x s t two_registers dumped same_address
  obtain rfl : afterDump x s = t := Host.Outcome.next.inj dumped
  obtain ⟨-, -, -, kept_pc, -⟩ := afterDump_onlyBytes x s
  have fetched_from_i (k : Nat) :
      (afterDump x s).readByte (s.pc.toNat + k) = (afterDump x s).readByte (s.i.toNat + k) := by
    rw [← State.readByte_mod, ← State.readByte_mod _ (s.i.toNat + k), Nat.add_mod, ← same_address,
      ← Nat.add_mod]
  have high : (afterDump x s).readByte s.pc.toNat = s.getV 0#4 :=
    (fetched_from_i 0).trans (readByte_afterDump (k := 0#4) s (Nat.zero_le _))
  have low : (afterDump x s).readByte (s.pc.toNat + 1) = s.getV 1#4 :=
    (fetched_from_i 1).trans (readByte_afterDump (k := 1#4) s two_registers)
  rw [State.fetchWord, kept_pc, high, low]

/-- A program fits up to the end of memory (R163). -/
theorem loadFits_iff (bytes : List Byte) : loadFits bytes = true ↔ bytes.length ≤ 3584 := by
  refine decide_eq_true_iff.trans ?_
  simp only [Config.progBase, Config.memSize]
  omega

/-- Settles O52: an accepted `load` is one run of byte writes at 0x200, below the end of memory. -/
theorem loadCopiesOrIsRejected : Obligations.LoadCopiesOrIsRejected := by
  intro s bytes
  refine ⟨fun fits => ?_, fun too_long => ?_⟩
  · have accepted : transact s (.load bytes) = (s.loadProgram bytes, .done) :=
      if_pos ((loadFits_iff bytes).mpr fits)
    rw [accepted]
    refine ⟨rfl, fun k listed => ?_, writeBytes_onlyBytes s 0x200 bytes fun k listed => ?_⟩
    · exact State.readByte_writeBytes_inside s 0x200 k bytes (by omega) listed
    · omega
  · exact if_neg fun fits => by have := (loadFits_iff bytes).mp fits; omega

end Sys2Proof.Proofs
end

section
/-! SUPPORT. Proofs about the key skips (45_keypad_timers.md R140, R141). -/

namespace Sys2Proof.Proofs

open Sys2Proof.Machine Sys2Proof.Safety

/-- Settles O47: the two skips test the key that the low nibble of `V[x]` selects. -/
theorem keySkipsTestTheSelectedKey : Obligations.KeySkipsTestTheSelectedKey := by
  intro x
  refine ⟨decodeWord_classE x 0x9E#8, decodeWord_classE x 0xA1#8, fun s key below selected => ?_⟩
  subst selected
  refine ⟨⟨_, rfl, skipIf_onlyPc s _, ?_⟩, ⟨_, rfl, skipIf_onlyPc s _, ?_⟩⟩
  · rw [skipIf_pc_toNat]
    simp only [keyIndex, pressed_eq_true_iff s below]
  · rw [skipIf_pc_toNat]
    simp only [keyIndex, Bool.not_eq_true', pressed_eq_false_iff s below]

end Sys2Proof.Proofs
end

section
/-! SUPPORT. Proofs about `Draw` (44_display.md R131 to R134): a sprite is the list of the cells its
1 bits cover, no cell twice, and drawing flips those cells one after another. -/

namespace Sys2Proof.Proofs

open Sys2Proof.Machine Sys2Proof.Safety

/-! ### The cells a sprite covers -/

/-- The cells that the 1 bits of one sprite row cover, in the order they are drawn (R131). -/
def rowCells (vx vy row : Nat) (b : Byte) : List Nat :=
  ((List.range 8).filter fun bit => b.getLsbD (7 - bit)).map (spriteCell vx vy row)

/-- The cells that the sprite of `n` rows at `I` covers when drawn at `(vx, vy)`. -/
def spriteCells (s : State) (vx vy n : Nat) : List Nat :=
  (List.range n).flatMap fun row => rowCells vx vy row (s.readByte (s.i.toNat + row))

theorem mem_rowCells {vx vy row k : Nat} {b : Byte} : k ∈ rowCells vx vy row b ↔
    ∃ bit, bit < 8 ∧ b.getLsbD (7 - bit) = true ∧ spriteCell vx vy row bit = k := by
  simp [rowCells, and_assoc]

theorem mem_spriteCells {s : State} {vx vy n k : Nat} : k ∈ spriteCells s vx vy n ↔
    ∃ row, row < n ∧ k ∈ rowCells vx vy row (s.readByte (s.i.toNat + row)) := by
  simp [spriteCells]

theorem spriteCells_lt {s : State} {vx vy n k : Nat} (covered : k ∈ spriteCells s vx vy n) :
    k < 2048 := by
  obtain ⟨row, -, in_row⟩ := mem_spriteCells.mp covered
  obtain ⟨bit, -, -, rfl⟩ := mem_rowCells.mp in_row
  exact spriteCell_lt vx vy row bit

/-- Two bits of a sprite of at most 32 rows never cover the same cell: the wrap is not that long. -/
theorem spriteCell_inj {vx vy row row' bit bit' : Nat} (hr : row < 32) (hr' : row' < 32)
    (hb : bit < 8) (hb' : bit' < 8)
    (same : spriteCell vx vy row bit = spriteCell vx vy row' bit') : row = row' ∧ bit = bit' := by
  unfold spriteCell at same
  omega

theorem rowCells_nodup (vx vy : Nat) {row : Nat} (b : Byte) (hr : row < 32) :
    (rowCells vx vy row b).Nodup := by
  refine (List.nodup_range.filter _).map_on fun bit hb bit' hb' same => ?_
  have bound (k : Nat) (hk : k ∈ (List.range 8).filter fun bit => b.getLsbD (7 - bit)) : k < 8 :=
    List.mem_range.mp (List.mem_filter.mp hk).1
  exact (spriteCell_inj hr hr (bound bit hb) (bound bit' hb') same).2

theorem spriteCells_nodup (s : State) (vx vy : Nat) {n : Nat} (hn : n ≤ 32) :
    (spriteCells s vx vy n).Nodup := by
  refine List.nodup_flatMap.mpr ⟨fun row in_range => ?_, ?_⟩
  · exact rowCells_nodup vx vy _ ((List.mem_range.mp in_range).trans_le hn)
  · refine List.nodup_range.imp_of_mem fun {row row'} in_range in_range' other k covered covered' => ?_
    obtain ⟨bit, hb, -, at_k⟩ := mem_rowCells.mp covered
    obtain ⟨bit', hb', -, at_k'⟩ := mem_rowCells.mp covered'
    exact other (spriteCell_inj ((List.mem_range.mp in_range).trans_le hn)
      ((List.mem_range.mp in_range').trans_le hn) hb hb' (at_k.trans at_k'.symm)).1

/-- `S(px, py)` of R133 is membership in the list of cells. -/
theorem covers_iff {s : State} {vx vy n px py : Nat} (hx : px < 64) :
    Covers s vx vy n px py ↔ py * 64 + px ∈ spriteCells s vx vy n := by
  have at_cell (row bit : Nat) : spriteCell vx vy row bit = py * 64 + px ↔
      (vx + bit) % 64 = px ∧ (vy + row) % 32 = py := by
    unfold spriteCell
    omega
  simp only [mem_spriteCells, mem_rowCells, at_cell, Covers]
  constructor
  · rintro ⟨row, bit, hr, hb, column, line, is_set⟩
    exact ⟨row, hr, bit, hb, is_set, column, line⟩
  · rintro ⟨row, hr, bit, hb, is_set, column, line⟩
    exact ⟨row, bit, hr, hb, column, line, is_set⟩

/-! ### Drawing a list of cells -/

/-- One covered cell (R131): flipped, and a collision where it was lit. -/
def drawCell (acc : State × Bool) (k : Nat) : State × Bool :=
  (acc.1.flipPixel k, acc.2 || acc.1.pixel k)

theorem drawRow_eq_foldl (vx vy row : Nat) (acc : State × Bool) :
    drawRow vx vy acc row =
      (rowCells vx vy row (acc.1.readByte (acc.1.effAddr row))).foldl drawCell acc := by
  rw [rowCells, List.foldl_map, List.foldl_filter]
  rfl

/-- Drawing moves neither memory nor `I`, so every row is read as it was before the draw. -/
theorem drawSprite_eq_foldl (vx vy n : Nat) (s : State) :
    drawSprite vx vy n s = (spriteCells s vx vy n).foldl drawCell (s, false) := by
  suffices drawn : ∀ (rows : List Nat) (acc : State × Bool), acc.1.mem = s.mem → acc.1.i = s.i →
      rows.foldl (drawRow vx vy) acc = (rows.flatMap fun row =>
        rowCells vx vy row (s.readByte (s.i.toNat + row))).foldl drawCell acc from
    drawn (List.range n) (s, false) rfl rfl
  intro rows
  induction rows with
  | nil => intro acc _ _; rfl
  | cons row rest ih =>
    intro acc same_mem same_i
    have same_byte : acc.1.readByte (acc.1.effAddr row) = s.readByte (s.i.toNat + row) := by
      rw [State.readByte, State.effAddr, same_mem, same_i, State.readByte]
    have kept := drawRow_eq vx vy row acc
    rw [List.foldl_cons, ih _ (by rw [kept]; exact same_mem) (by rw [kept]; exact same_i),
      drawRow_eq_foldl, same_byte, List.flatMap_cons, List.foldl_append]

theorem pixel_foldl_drawCell {cells : List Nat} (nodup : cells.Nodup)
    (below : ∀ k ∈ cells, k < 2048) (acc : State × Bool) (j : Nat) :
    (cells.foldl drawCell acc).1.pixel j = (acc.1.pixel j ^^ decide (j ∈ cells)) := by
  induction cells generalizing acc with
  | nil => simp
  | cons k rest ih =>
    obtain ⟨not_again, nodup_rest⟩ := List.nodup_cons.mp nodup
    rw [List.foldl_cons, ih nodup_rest fun c hc => below c (List.mem_cons_of_mem k hc), drawCell,
      State.pixel_flipPixel _ _ _ (below k List.mem_cons_self)]
    by_cases at_k : j = k
    · subst at_k; simp [not_again]
    · simp [at_k]

/-- A collision is found at the first draw of a cell, which is its only one. -/
theorem hit_foldl_drawCell {cells : List Nat} (nodup : cells.Nodup)
    (below : ∀ k ∈ cells, k < 2048) (acc : State × Bool) :
    (cells.foldl drawCell acc).2 = (acc.2 || cells.any acc.1.pixel) := by
  induction cells generalizing acc with
  | nil => simp
  | cons k rest ih =>
    obtain ⟨not_again, nodup_rest⟩ := List.nodup_cons.mp nodup
    have still_same : rest.any (acc.1.flipPixel k).pixel = rest.any acc.1.pixel := by
      rw [Bool.eq_iff_iff, List.any_eq_true, List.any_eq_true]
      refine exists_congr fun j => and_congr_right fun hj => ?_
      rw [State.pixel_flipPixel _ _ _ (below k List.mem_cons_self),
        if_neg fun at_k : j = k => not_again (at_k ▸ hj)]
    rw [List.foldl_cons, ih nodup_rest fun c hc => below c (List.mem_cons_of_mem k hc), drawCell,
      still_same, List.any_cons, Bool.or_assoc]

/-! ### What `Draw` leaves -/

/-- The sprite as a `Draw` draws it. -/
def drawn (x y n : Nibble) (s : State) : State × Bool :=
  drawSprite (s.getV x).toNat (s.getV y).toNat n.toNat s

/-- The state `Draw` leaves (R131). -/
def afterDraw (x y n : Nibble) (s : State) : State :=
  (drawn x y n s).1.setV vf (flagByte (drawn x y n s).2)

/-- The cells a `Draw` covers. -/
def drawnCells (x y n : Nibble) (s : State) : List Nat :=
  spriteCells s (s.getV x).toNat (s.getV y).toNat n.toNat

theorem exec_draw (x y n : Nibble) (s : State) :
    exec (.draw x y n) s = .next (afterDraw x y n s) := rfl

theorem drawnCells_nodup (x y n : Nibble) (s : State) : (drawnCells x y n s).Nodup :=
  spriteCells_nodup s _ _ (by have := n.isLt; omega)

theorem pixel_afterDraw (x y n : Nibble) (s : State) (k : Nat) :
    (afterDraw x y n s).pixel k = (s.pixel k ^^ decide (k ∈ drawnCells x y n s)) := by
  rw [afterDraw, State.setV_pixel, drawn, drawSprite_eq_foldl]
  exact pixel_foldl_drawCell (drawnCells_nodup x y n s) (fun _ => spriteCells_lt) _ k

theorem getV_vf_afterDraw (x y n : Nibble) (s : State) :
    (afterDraw x y n s).getV 15#4 = flagByte ((drawnCells x y n s).any s.pixel) := by
  have hit : (drawn x y n s).2 = (drawnCells x y n s).any s.pixel := by
    rw [drawn, drawSprite_eq_foldl]
    exact (hit_foldl_drawCell (drawnCells_nodup x y n s) (fun _ => spriteCells_lt) _).trans
      (Bool.false_or _)
  rw [← hit]
  exact State.getV_setV_self _ _ _

theorem afterDraw_onlyScreenAndRegs (x y n : Nibble) (s : State) :
    OnlyScreenAndRegs (· = 15#4) s (afterDraw x y n s) := by
  have only_screen : (drawn x y n s).1 = { s with gfx := (drawn x y n s).1.gfx } :=
    drawSprite_eq _ _ _ s
  rw [afterDraw, only_screen]
  refine ⟨fun j other => ?_, fun _ _ _ => rfl, rfl, rfl, ⟨rfl, rfl⟩, ⟨rfl, rfl⟩, ⟨rfl, rfl⟩,
    ⟨rfl, rfl⟩⟩
  rw [State.getV_setV, if_neg (show j ≠ vf from other)]
  rfl

/-- A lit cell that a `Draw` covers, by its cell or by its column and line (R133). -/
theorem any_drawnCells_iff (x y n : Nibble) (s : State) :
    (drawnCells x y n s).any s.pixel = true ↔
      ∃ px py, px < 64 ∧ py < 32 ∧ s.pixel (py * 64 + px) = true ∧
        Covers s (s.getV x).toNat (s.getV y).toNat n.toNat px py := by
  rw [List.any_eq_true]
  constructor
  · rintro ⟨k, covered, lit⟩
    have below : k < 2048 := spriteCells_lt covered
    have cell : k / 64 * 64 + k % 64 = k := Nat.div_add_mod' k 64
    exact ⟨k % 64, k / 64, by omega, by omega, by rwa [cell],
      (covers_iff (by omega)).mpr (by rwa [cell])⟩
  · rintro ⟨px, py, hx, -, lit, covered⟩
    exact ⟨_, (covers_iff hx).mp covered, lit⟩

/-! ### Drawing the same sprite again -/

theorem spriteCells_congr {s u : State} (vx vy : Nat) {n : Nat} (same_i : u.i = s.i)
    (same_bytes : ∀ k, k < n → u.readByte (s.i.toNat + k) = s.readByte (s.i.toNat + k)) :
    spriteCells u vx vy n = spriteCells s vx vy n := by
  refine List.flatMap_congr fun row in_range => ?_
  rw [same_i, same_bytes row (List.mem_range.mp in_range)]

theorem pixel_congr {t u : State} (same_gfx : u.gfx = t.gfx) (k : Nat) : u.pixel k = t.pixel k := by
  rw [State.pixel, State.pixel, same_gfx]

/-! ### The statements -/

/-- Settles O45: the sprite's cells are flipped once each, and a collision is a lit one of them. -/
theorem drawXorsTheWholeSprite : Obligations.DrawXorsTheWholeSprite := by
  intro x y n
  refine ⟨decodeWord_draw x y n, fun s => ⟨_, exec_draw x y n s, fun px py hx _ => ?_,
    fun lit_covered => ?_, fun none_covered => ?_, afterDraw_onlyScreenAndRegs x y n s⟩⟩
  · rw [covers_iff hx, pixel_afterDraw, drawnCells]
    exact ⟨fun covered => by simp [covered], fun not_covered => by simp [not_covered]⟩
  · rw [getV_vf_afterDraw, (any_drawnCells_iff x y n s).mpr lit_covered]
    rfl
  · rw [getV_vf_afterDraw, Bool.eq_false_iff.mpr (mt (any_drawnCells_iff x y n s).mp none_covered)]
    rfl

/-- Settles O46: the second draw covers the cells of the first, so each is flipped back; a cell that
the first turned on is one of them, and lit before the second. -/
theorem drawingTwiceRestoresTheScreen : Obligations.DrawingTwiceRestoresTheScreen := by
  intro x y x' y' n s t u executed same_gfx same_x same_y same_i same_bytes
  obtain rfl : afterDraw x y n s = t := Host.Outcome.next.inj executed
  have same_cells : drawnCells x' y' n u = drawnCells x y n s := by
    rw [drawnCells, same_x, same_y]
    exact spriteCells_congr _ _ same_i same_bytes
  have lit_before (k : Nat) : u.pixel k = (s.pixel k ^^ decide (k ∈ drawnCells x y n s)) :=
    (pixel_congr same_gfx k).trans (pixel_afterDraw x y n s k)
  refine ⟨_, exec_draw x' y' n u, fun k => ?_, ?_⟩
  · rw [pixel_afterDraw, lit_before, same_cells, Bool.xor_assoc, Bool.xor_self, Bool.xor_false]
  · rintro ⟨k, dark, lit⟩
    have covered : k ∈ drawnCells x y n s := by
      simpa [pixel_afterDraw, dark] using lit
    have hit : (drawnCells x' y' n u).any u.pixel = true :=
      List.any_eq_true.mpr ⟨k, same_cells ▸ covered, (pixel_congr same_gfx k).trans lit⟩
    rw [getV_vf_afterDraw, hit]
    rfl

end Sys2Proof.Proofs
end

section
/-! SUPPORT. What every instruction writes and leaves unchanged (10_state.md R10, R13, R23). -/

namespace Sys2Proof.Proofs

open Sys2Proof.Machine Sys2Proof.Safety

/-! ### The frame of an instruction from the frame of what it does -/

/-- What the access tables let an instruction change between two states. -/
def WritesAsNamed (i : Instr) (s t : State) : Prop :=
  SameRegs (mayWriteReg i) s t ∧
    (¬ writesMemory i → SameBytes nothing s t) ∧ (¬ writesIndex i → t.i = s.i) ∧
    (¬ movesStack i → SameStack s t ∧ t.fault = s.fault) ∧ (i = .ret → t.stack = s.stack) ∧
    (¬ writesScreen i → SamePixels s t) ∧ ((∀ x, i ≠ .setDT x) → t.dt = s.dt) ∧
    ((∀ x, i ≠ .setST x) → t.st = s.st) ∧ t.keypad = s.keypad

variable {i : Instr} {s t : State}

theorem sameRegs_of_nothing (written : Nibble → Prop) (same : SameRegs nothing s t) :
    SameRegs written s t := fun j _ => same j id

theorem writesAsNamed_of_sameButRegs (regs : SameRegs (mayWriteReg i) s t)
    (rest : SameButRegsAndRnd s t) : WritesAsNamed i s t := by
  obtain ⟨bytes, index, -, stack, pixels, ⟨dt, st⟩, keys, fault⟩ := rest
  exact ⟨regs, fun _ => bytes, fun _ => index, fun _ => ⟨stack, fault⟩, fun _ => stack.1,
    fun _ => pixels, fun _ => dt, fun _ => st, keys⟩

theorem writesAsNamed_of_onlyRegs (only : OnlyRegs (mayWriteReg i) s t) : WritesAsNamed i s t :=
  writesAsNamed_of_sameButRegs only.1 only.2.1

theorem writesAsNamed_of_onlyPc (only : OnlyPc s t) : WritesAsNamed i s t := by
  obtain ⟨regs, bytes, index, stack, pixels, ⟨dt, st⟩, ⟨keys, fault⟩, -⟩ := only
  exact ⟨sameRegs_of_nothing _ regs, fun _ => bytes, fun _ => index, fun _ => ⟨stack, fault⟩,
    fun _ => stack.1, fun _ => pixels, fun _ => dt, fun _ => st, keys⟩

theorem writesAsNamed_of_onlyIndex (listed : writesIndex i) (only : OnlyIndex s t) :
    WritesAsNamed i s t := by
  obtain ⟨regs, bytes, -, stack, pixels, ⟨dt, st⟩, ⟨keys, fault⟩, -⟩ := only
  exact ⟨sameRegs_of_nothing _ regs, fun _ => bytes, fun unlisted => absurd listed unlisted,
    fun _ => ⟨stack, fault⟩, fun _ => stack.1, fun _ => pixels, fun _ => dt, fun _ => st, keys⟩

theorem writesAsNamed_of_onlyBytes {written : Nat → Prop} (listed : writesMemory i)
    (only : OnlyBytes written s t) : WritesAsNamed i s t := by
  obtain ⟨regs, -, index, -, stack, pixels, ⟨dt, st⟩, ⟨keys, fault⟩, -⟩ := only
  exact ⟨sameRegs_of_nothing _ regs, fun unlisted => absurd listed unlisted, fun _ => index,
    fun _ => ⟨stack, fault⟩, fun _ => stack.1, fun _ => pixels, fun _ => dt, fun _ => st, keys⟩

theorem writesAsNamed_of_onlyScreenAndRegs (listed : writesScreen i)
    (only : OnlyScreenAndRegs (mayWriteReg i) s t) : WritesAsNamed i s t := by
  obtain ⟨regs, bytes, index, -, stack, ⟨dt, st⟩, ⟨keys, fault⟩, -⟩ := only
  exact ⟨regs, fun _ => bytes, fun _ => index, fun _ => ⟨stack, fault⟩, fun _ => stack.1,
    fun unlisted => absurd listed unlisted, fun _ => dt, fun _ => st, keys⟩

theorem writesAsNamed_of_onlyTimers (only : OnlyTimers s t)
    (dt : (∀ x, i ≠ .setDT x) → t.dt = s.dt) (st : (∀ x, i ≠ .setST x) → t.st = s.st) :
    WritesAsNamed i s t := by
  obtain ⟨regs, bytes, index, -, stack, pixels, ⟨keys, fault⟩, -⟩ := only
  exact ⟨sameRegs_of_nothing _ regs, fun _ => bytes, fun _ => index, fun _ => ⟨stack, fault⟩,
    fun _ => stack.1, fun _ => pixels, dt, st, keys⟩

theorem writesAsNamed_of_onlyPcAndStack (listed : movesStack i)
    (entries : i = .ret → t.stack = s.stack) (only : OnlyPcAndStack s t) : WritesAsNamed i s t := by
  obtain ⟨regs, bytes, index, pixels, ⟨dt, st⟩, ⟨keys, -⟩, -⟩ := only
  exact ⟨sameRegs_of_nothing _ regs, fun _ => bytes, fun _ => index,
    fun unlisted => absurd listed unlisted, entries, fun _ => pixels, fun _ => dt, fun _ => st, keys⟩

theorem writesAsNamed_takeFault (listed : movesStack i) (s : State) (f : FaultLatch) :
    WritesAsNamed i s (s.takeFault f) :=
  ⟨fun _ _ => rfl, fun _ _ _ _ => rfl, fun _ => rfl, fun unlisted => absurd listed unlisted,
    fun _ => rfl, fun _ _ => rfl, fun _ => rfl, fun _ => rfl, rfl⟩

/-! ### Every instruction -/

/-- `Rand` writes `V[x]` and the model's count of free bytes (R111, log entry 1). -/
theorem execRand_frame (x : Nibble) (b : Byte) (s : State) :
    SameRegs (· = x) s (s.countDraw.setV x b) ∧ SameButRegsAndRnd s (s.countDraw.setV x b) := by
  obtain ⟨_, _, -, -, uncounted⟩ | ⟨-, -, counted⟩ := State.countDraw_cases s
  · rw [uncounted]
    exact ⟨(setV_onlyRegs s x b).1, (setV_onlyRegs s x b).2.1⟩
  · rw [counted]
    exact ⟨(setV_onlyRegs { s with draws := s.draws + 1 } x b).1,
      (setV_onlyRegs { s with draws := s.draws + 1 } x b).2.1⟩

theorem exec_writesAsNamed (executed : exec i s = .next t) : WritesAsNamed i s t := by
  cases i with
  | loadByte x _ | addByte x _ | loadReg x _ | orReg x _ | andReg x _ | xorReg x _ | loadDT x =>
    obtain rfl := Host.Outcome.next.inj executed
    exact writesAsNamed_of_onlyRegs (setV_onlyRegs s x _)
  | addReg x _ | subReg x _ | shrReg x _ | subnReg x _ | shlReg x _ =>
    obtain rfl := Host.Outcome.next.inj executed
    exact writesAsNamed_of_onlyRegs (writeFlagged_onlyRegs s _ x _)
  | rand x _ =>
    obtain rfl := Host.Outcome.next.inj executed
    exact writesAsNamed_of_sameButRegs (execRand_frame x _ s).1 (execRand_frame x _ s).2
  | loadRegs x =>
    obtain rfl := Host.Outcome.next.inj executed
    exact writesAsNamed_of_onlyRegs (afterLoadRegs_onlyRegs x s)
  | sys _ | noOp =>
    obtain rfl := Host.Outcome.next.inj executed
    exact writesAsNamed_of_onlyPc (setPc_onlyPc s s.pc)
  | jump _ | jumpV0 _ =>
    obtain rfl := Host.Outcome.next.inj executed
    exact writesAsNamed_of_onlyPc (setPc_onlyPc s _)
  | skipEqByte _ _ | skipNeByte _ _ | skipEqReg _ _ | skipNeReg _ _ | skipIfKey _
  | skipIfNotKey _ =>
    obtain rfl := Host.Outcome.next.inj executed
    exact writesAsNamed_of_onlyPc (skipIf_onlyPc s _)
  | loadI _ | addI _ | loadSprite _ =>
    obtain rfl := Host.Outcome.next.inj executed
    exact writesAsNamed_of_onlyIndex trivial (setI_onlyIndex s _)
  | bcd _ | dumpRegs _ =>
    obtain rfl := Host.Outcome.next.inj executed
    exact writesAsNamed_of_onlyBytes (written := fun _ => True) trivial
      (writeBytes_onlyBytes s _ _ fun _ _ => trivial)
  | cls =>
    obtain rfl := Host.Outcome.next.inj executed
    exact writesAsNamed_of_onlyScreenAndRegs trivial (clearGfx_onlyScreenAndRegs s)
  | draw x y n =>
    obtain rfl := Host.Outcome.next.inj executed
    exact writesAsNamed_of_onlyScreenAndRegs trivial (afterDraw_onlyScreenAndRegs x y n s)
  | setDT x =>
    obtain rfl := Host.Outcome.next.inj executed
    exact writesAsNamed_of_onlyTimers (setDT_onlyTimers s _) (fun other => absurd rfl (other x))
      fun _ => rfl
  | setST x =>
    obtain rfl := Host.Outcome.next.inj executed
    exact writesAsNamed_of_onlyTimers (setST_onlyTimers s _) (fun _ => rfl)
      fun other => absurd rfl (other x)
  | waitKey x =>
    obtain ⟨-, held⟩ | ⟨k, -, -, -, taken⟩ := execWaitKey_cases x s
    · obtain rfl := Host.Outcome.next.inj (held.symm.trans executed)
      exact writesAsNamed_of_onlyPc (setPc_onlyPc s _)
    · obtain rfl := Host.Outcome.next.inj (taken.symm.trans executed)
      exact writesAsNamed_of_onlyRegs (setV_onlyRegs s x _)
  | call nnn =>
    obtain ⟨-, overflowed⟩ | ⟨room, called⟩ := execCall_cases nnn s
    · obtain rfl := Host.Outcome.next.inj (overflowed.symm.trans executed)
      exact writesAsNamed_takeFault (i := .call nnn) trivial s _
    · obtain rfl := Host.Outcome.next.inj (called.symm.trans executed)
      exact writesAsNamed_of_onlyPcAndStack trivial nofun (afterCall_onlyPcAndStack nnn s room)
  | ret =>
    obtain ⟨-, underflowed⟩ | ⟨top, -, returned⟩ := execRet_cases s
    · obtain rfl := Host.Outcome.next.inj (underflowed.symm.trans executed)
      exact writesAsNamed_takeFault (i := .ret) trivial s _
    · obtain rfl := Host.Outcome.next.inj (returned.symm.trans executed)
      exact writesAsNamed_of_onlyPcAndStack trivial (fun _ => rfl) (afterRet_onlyPcAndStack s top)

/-- No instruction stops the machine (00_scope.md R9). -/
theorem exec_next (i : Instr) (s : State) : ∃ t, exec i s = .next t := by
  cases i with
  | call nnn => obtain ⟨-, h⟩ | ⟨_, h⟩ := execCall_cases nnn s <;> exact ⟨_, h⟩
  | ret => obtain ⟨-, h⟩ | ⟨_, -, h⟩ := execRet_cases s <;> exact ⟨_, h⟩
  | waitKey x => obtain ⟨-, h⟩ | ⟨_, -, -, -, h⟩ := execWaitKey_cases x s <;> exact ⟨_, h⟩
  | _ => exact ⟨_, rfl⟩

theorem step_next (s : State) : ∃ t, step s = .next t := by
  by_cases running : s.fault = .none
  · obtain ⟨u, executed⟩ := exec_next s.fetchInstr s.advancePc
    exact ⟨u.finishTick, by rw [step_of_running running, executed, finishOutcome]⟩
  · exact ⟨s, step_of_faulted running⟩

theorem movesStack_cases (listed : movesStack i) : (∃ nnn, i = .call nnn) ∨ i = .ret := by
  cases i with
  | call nnn => exact .inl ⟨nnn, rfl⟩
  | ret => exact .inr rfl
  | _ => exact listed.elim

/-- All that an instruction can do to the latch (60_exceptions.md R150, R152). -/
theorem exec_fault_cases (executed : exec i s = .next t) :
    t.fault = s.fault ∨
      (∃ nnn, i = .call nnn ∧ s.sp.val = 16 ∧ t = s.takeFault .stackOverflow) ∨
      (i = .ret ∧ s.sp.val = 0 ∧ t = s.takeFault .stackUnderflow) := by
  by_cases listed : movesStack i
  · obtain ⟨nnn, rfl⟩ | rfl := movesStack_cases listed
    · obtain ⟨full, overflowed⟩ | ⟨room, called⟩ := execCall_cases nnn s
      · exact .inr (.inl ⟨nnn, rfl, full, Host.Outcome.next.inj (executed.symm.trans overflowed)⟩)
      · obtain rfl := Host.Outcome.next.inj (called.symm.trans executed)
        exact .inl rfl
    · obtain ⟨empty, underflowed⟩ | ⟨top, -, returned⟩ := execRet_cases s
      · exact .inr (.inr ⟨rfl, empty, Host.Outcome.next.inj (executed.symm.trans underflowed)⟩)
      · obtain rfl := Host.Outcome.next.inj (returned.symm.trans executed)
        exact .inl rfl
  · obtain ⟨-, -, -, stack_and_fault, -⟩ := exec_writesAsNamed executed
    exact .inl (stack_and_fault listed).2

/-- What any instruction does to memory is a run of byte writes, of none where it is not `Bcd` or
`DumpRegs`. -/
theorem exec_mem_cases (executed : exec i s = .next t) :
    ∃ a bs, t.mem = (s.writeBytes a bs).mem := by
  cases i with
  | bcd x | dumpRegs x =>
    obtain rfl := Host.Outcome.next.inj executed
    exact ⟨_, _, rfl⟩
  | skipEqByte _ _ | skipNeByte _ _ | skipEqReg _ _ | skipNeReg _ _ | skipIfKey _
  | skipIfNotKey _ =>
    obtain rfl := Host.Outcome.next.inj executed
    exact ⟨0, [], by rw [State.skipIf_pc]; rfl⟩
  | loadRegs x =>
    obtain rfl := Host.Outcome.next.inj executed
    exact ⟨0, [], by rw [State.setRegs_eq]; rfl⟩
  | draw x y n =>
    obtain rfl := Host.Outcome.next.inj executed
    exact ⟨0, [], by rw [State.setV_mem, drawSprite_eq]; rfl⟩
  | rand x _ =>
    obtain rfl := Host.Outcome.next.inj executed
    obtain ⟨_, _, -, -, uncounted⟩ | ⟨-, -, counted⟩ := State.countDraw_cases s
    · exact ⟨0, [], by rw [uncounted]; rfl⟩
    · exact ⟨0, [], by rw [counted]; rfl⟩
  | waitKey x =>
    obtain ⟨-, left⟩ | ⟨_, -, -, -, left⟩ := execWaitKey_cases x s
    all_goals obtain rfl := Host.Outcome.next.inj (left.symm.trans executed); exact ⟨0, [], rfl⟩
  | call nnn =>
    obtain ⟨-, left⟩ | ⟨_, left⟩ := execCall_cases nnn s
    all_goals obtain rfl := Host.Outcome.next.inj (left.symm.trans executed); exact ⟨0, [], rfl⟩
  | ret =>
    obtain ⟨-, left⟩ | ⟨_, -, left⟩ := execRet_cases s
    all_goals obtain rfl := Host.Outcome.next.inj (left.symm.trans executed); exact ⟨0, [], rfl⟩
  | _ =>
    obtain rfl := Host.Outcome.next.inj executed
    exact ⟨0, [], rfl⟩

theorem exec_mem_wf (executed : exec i s = .next t) (canonical : s.mem.wf) : t.mem.wf := by
  obtain ⟨a, bs, written⟩ := exec_mem_cases executed
  rw [written]
  exact State.writeBytes_wf a bs canonical

end Sys2Proof.Proofs
end

section
/-! SUPPORT. The statements about what an instruction writes (10_state.md) and about the two stack
faults and the invariant (60_exceptions.md R150 to R153, 10_state.md R32). -/

namespace Sys2Proof.Proofs

open Sys2Proof.Machine Sys2Proof.Safety

/-- Settles O15, instruction by instruction, each by the frame of the one operation it is. -/
theorem onlyNamedInstructionsWrite : Obligations.OnlyNamedInstructionsWrite :=
  fun _ _ _ executed => exec_writesAsNamed executed

/-- Settles O7: no arm of `exec` stops, and the latch is `Call`'s and `Ret`'s by the access tables. -/
theorem everyInstructionGivesANextState : Obligations.EveryInstructionGivesANextState := by
  refine ⟨fun i s => ?_, step_next⟩
  obtain ⟨t, executed⟩ := exec_next i s
  obtain ⟨-, -, -, stack_and_fault, -⟩ := exec_writesAsNamed executed
  exact ⟨t, executed, fun changed => by_contra fun unlisted => changed (stack_and_fault unlisted).2⟩

/-! ### A tick that raises a fault -/

theorem overflow_ne_underflow : FaultLatch.stackOverflow ≠ .stackUnderflow := by decide

/-- A tick whose instruction raises a fault is undone but for the latch (R84, R152). -/
theorem step_of_takeFault {s : State} {f : FaultLatch} (running : s.fault = .none)
    (raised : f ≠ .none)
    (executed : exec s.fetchInstr s.advancePc = .next (s.advancePc.takeFault f)) :
    step s = .next { s with fault := f } := by
  rw [step_of_running running, executed, finishOutcome, State.finishTick_of_faulted (by exact raised),
    State.advancePc_takeFault]

/-- Everything a tick of a running core can do to the latch (R150). -/
theorem step_fault_cases {s t : State} (running : s.fault = .none) (ticked : step s = .next t) :
    t.fault = .none ∨
      (∃ nnn, s.fetchInstr = .call nnn ∧ s.sp.val = 16 ∧ t = { s with fault := .stackOverflow }) ∨
      (s.fetchInstr = .ret ∧ s.sp.val = 0 ∧ t = { s with fault := .stackUnderflow }) := by
  obtain ⟨faulted, -⟩ | ⟨u, -, executed, ⟨unfaulted, rfl⟩ | ⟨raised, rfl⟩⟩ := step_cases ticked
  · exact absurd running faulted
  · exact .inl unfaulted
  · obtain kept | ⟨nnn, is_call, full, left⟩ | ⟨is_ret, empty, left⟩ := exec_fault_cases executed
    · exact absurd (kept.trans running) raised
    · exact .inr (.inl ⟨nnn, is_call, full, left.trans (State.advancePc_takeFault s _)⟩)
    · exact .inr (.inr ⟨is_ret, empty, left.trans (State.advancePc_takeFault s _)⟩)

theorem step_mem_wf {s t : State} (ticked : step s = .next t) (canonical : s.mem.wf) : t.mem.wf := by
  obtain ⟨-, rfl⟩ | ⟨u, -, executed, ⟨-, rfl⟩ | ⟨-, rfl⟩⟩ := step_cases ticked
  · exact canonical
  · exact exec_mem_wf (t := u) executed canonical
  · exact exec_mem_wf executed canonical

/-! ### The statements -/

/-- Settles O13: memory changes by stores only, which keep its form; a fault is latched only where
it is explained, and it leaves `pc`, `sp` and memory, which explain it, as they were. -/
theorem everyStepKeepsTheInvariant : Obligations.EveryStepKeepsTheInvariant := by
  rintro s t ⟨canonical, explained⟩ ticked
  refine ⟨step_mem_wf ticked canonical, ?_⟩
  by_cases running : s.fault = .none
  · obtain unfaulted | ⟨nnn, is_call, full, rfl⟩ | ⟨is_ret, empty, rfl⟩ :=
      step_fault_cases running ticked
    · exact ⟨fun latched => absurd (unfaulted.symm.trans latched) nofun,
        fun latched => absurd (unfaulted.symm.trans latched) nofun⟩
    · exact ⟨fun _ => ⟨full, nnn, is_call⟩, fun latched => absurd latched overflow_ne_underflow⟩
    · exact ⟨fun latched => absurd latched overflow_ne_underflow.symm, fun _ => ⟨empty, is_ret⟩⟩
  · obtain rfl : s = t := Host.Outcome.next.inj ((step_of_faulted running).symm.trans ticked)
    exact explained

/-- Settles O14: no byte is listed and no fault is latched. -/
theorem resetHasTheInvariant : Obligations.ResetHasTheInvariant :=
  ⟨reset_mem_wf, nofun, nofun⟩

/-- Settles O10: the fault cases of `Call` and `Ret` on the advanced `pc`. -/
theorem stackFaultUndoesTheTick : Obligations.StackFaultUndoesTheTick := by
  refine fun s running => ⟨fun nnn fetched full => ?_, fun fetched empty => ?_⟩
  · refine step_of_takeFault running nofun ?_
    rw [fetched]
    exact exec_call_of_full nnn full
  · refine step_of_takeFault running nofun ?_
    rw [fetched]
    exact exec_ret_of_empty empty

/-- Settles O11: of the cases of a tick, one latches each fault. -/
theorem onlyStackLimitsLatchAFault : Obligations.OnlyStackLimitsLatchAFault := by
  intro s t running ticked
  obtain unfaulted | ⟨nnn, is_call, full, rfl⟩ | ⟨is_ret, empty, rfl⟩ :=
    step_fault_cases running ticked
  · exact ⟨fun latched => absurd (unfaulted.symm.trans latched) nofun,
      fun latched => absurd (unfaulted.symm.trans latched) nofun⟩
  · exact ⟨fun _ => ⟨⟨nnn, is_call⟩, full⟩, fun latched => absurd latched overflow_ne_underflow⟩
  · exact ⟨fun latched => absurd latched overflow_ne_underflow.symm, fun _ => ⟨is_ret, empty⟩⟩

/-- A faulted core stays as it is for any number of ticks (R86, R153). -/
theorem run_of_faulted {s : State} (faulted : s.fault ≠ .none) (k : Nat) :
    Host.Core.run core k s = .next s := by
  induction k with
  | zero => rfl
  | succ k ih => rw [core_run_succ k (step_of_faulted faulted), ih]

theorem tickWith_of_faulted {s : State} (faulted : s.fault ≠ .none) (rnd : Byte) :
    s.tickWith rnd = s := by
  rw [State.tickWith, step_of_faulted (s := s.supplyRnd rnd) faulted]
  rfl

/-- Settles O12: a step, and so a tick, of a faulted core is none, and of the other transactions only
`reset` writes the latch. -/
theorem faultLatchHoldsUntilReset : Obligations.FaultLatchHoldsUntilReset := by
  refine fun s faulted => ⟨run_of_faulted faulted, fun rnd => ?_, fun bytes => ?_,
    fun _ _ => rfl, rfl⟩
  · rw [transact, tickWith_of_faulted faulted]
  · rw [transact]
    split
    · rw [State.loadProgram, State.writeBytes_eq]
    · rfl

end Sys2Proof.Proofs
end

section
/-! SUPPORT. Proofs about the fetch and the tick (20_memory.md R43, 40_tick_cycle.md R80 to R86). -/

namespace Sys2Proof.Proofs

open Sys2Proof.Machine Sys2Proof.Safety

theorem wordOfBytes_toNat (hi lo : Byte) :
    (wordOfBytes hi lo).toNat = 256 * hi.toNat + lo.toNat := by
  refine (BitVec.toNat_append hi lo).trans ?_
  rw [← Nat.shiftLeft_add_eq_or_of_lt lo.isLt, Nat.shiftLeft_eq, Nat.mul_comm]

/-- Settles O5: the fetched word is the two bytes put together. -/
theorem fetchIsBigEndianMasked : Obligations.FetchIsBigEndianMasked :=
  fun _ => wordOfBytes_toNat _ _

/-- Settles O6: the fetch decodes the same two bytes, and the end of a tick is the two cases of
`State.finishTick`. -/
theorem stepRunsTheDecodedInstruction : Obligations.StepRunsTheDecodedInstruction := by
  refine ⟨fun s i running decoded _ => ?_, fun s faulted => step_of_faulted faulted⟩
  obtain rfl : s.fetchInstr = i := congrArg Prod.fst (Except.ok.inj decoded)
  obtain ⟨u, executed⟩ := exec_next s.fetchInstr s.advancePc
  rw [step_of_running running, executed, show exec s.fetchInstr { s with pc := s.pc + 2#16 } = .next u
    from executed, finishOutcome]
  by_cases unfaulted : u.fault = .none
  · rw [State.finishTick_of_running unfaulted]
    simp only [if_pos unfaulted]
    rfl
  · rw [State.finishTick_of_faulted unfaulted]
    simp only [if_neg unfaulted]

/-! ### The `pc` an instruction leaves (41_control_flow.md, the summary table) -/

theorem skipIf_advancePc_pc (s : State) (taken : Bool) :
    (s.advancePc.skipIf taken).pc = s.pc + if taken then 4#16 else 2#16 := by
  cases taken with
  | true => exact BitVec.add_assoc s.pc 2#16 2#16
  | false => rfl

theorem someKeyPressed_iff (s : State) : SomeKeyPressed s ↔ ¬ ∀ k < 16, s.pressed k = false := by
  simp [SomeKeyPressed]

/-- What the instruction of a tick leaves in `pc`, from the advanced one. -/
theorem pcAfter_of_exec {i : Instr} {s u : State} (executed : exec i s.advancePc = .next u)
    (unfaulted : u.fault = .none) : pcAfter i s u.pc := by
  cases i with
  | jump _ =>
    obtain rfl := Host.Outcome.next.inj executed
    rfl
  | jumpV0 nnn =>
    obtain rfl := Host.Outcome.next.inj executed
    exact jumpV0_target_toNat nnn (s.getV 0#4)
  | call nnn =>
    obtain ⟨-, overflowed⟩ | ⟨room, called⟩ := execCall_cases nnn s.advancePc
    · obtain rfl := Host.Outcome.next.inj (overflowed.symm.trans executed)
      exact nomatch (show FaultLatch.stackOverflow = .none from unfaulted)
    · obtain rfl := Host.Outcome.next.inj (called.symm.trans executed)
      rfl
  | ret =>
    obtain ⟨-, underflowed⟩ | ⟨top, -, returned⟩ := execRet_cases s.advancePc
    · obtain rfl := Host.Outcome.next.inj (underflowed.symm.trans executed)
      exact nomatch (show FaultLatch.stackUnderflow = .none from unfaulted)
    · obtain rfl := Host.Outcome.next.inj (returned.symm.trans executed)
      exact ⟨top, rfl⟩
  | skipEqByte _ _ | skipNeByte _ _ | skipEqReg _ _ | skipNeReg _ _ | skipIfKey _ =>
    obtain rfl := Host.Outcome.next.inj executed
    simp [pcAfter, skipIf_advancePc_pc, keyIndex]
  | skipIfNotKey x =>
    obtain rfl := Host.Outcome.next.inj executed
    cases down : s.pressed ((s.getV x).toNat % 16) <;>
      simp [pcAfter, skipIf_advancePc_pc, keyIndex, down]
  | waitKey x =>
    rw [pcAfter, someKeyPressed_iff, not_not]
    obtain ⟨none_down, held⟩ | ⟨k, below, down, -, taken⟩ := execWaitKey_cases x s.advancePc
    · obtain rfl := Host.Outcome.next.inj (held.symm.trans executed)
      exact ⟨fun some_down => absurd none_down some_down,
        fun _ => congrArg State.pc (State.advancePc_rewindPc s)⟩
    · obtain rfl := Host.Outcome.next.inj (taken.symm.trans executed)
      exact ⟨fun _ => rfl, fun none_down => absurd down (Bool.eq_false_iff.mp (none_down k below))⟩
  | bcd _ | dumpRegs _ =>
    obtain rfl := Host.Outcome.next.inj executed
    exact congrArg State.pc (State.writeBytes_eq _ _ _)
  | loadRegs _ =>
    obtain rfl := Host.Outcome.next.inj executed
    exact congrArg State.pc (State.setRegs_eq _ _ _)
  | draw _ _ _ =>
    obtain rfl := Host.Outcome.next.inj executed
    exact congrArg State.pc (drawSprite_eq _ _ _ _)
  | rand x _ =>
    obtain rfl := Host.Outcome.next.inj executed
    obtain ⟨-, -, -, kept_pc, -⟩ := execRand_frame x _ s.advancePc
    exact kept_pc
  | _ =>
    obtain rfl := Host.Outcome.next.inj executed
    rfl

/-- Settles O9, instruction by instruction: what the instruction leaves in `pc`, the end of the tick
keeps. -/
theorem pcAfterEveryTick : Obligations.PcAfterEveryTick := by
  intro s t running ticked unfaulted
  obtain ⟨faulted, -⟩ | ⟨u, -, executed, ⟨kept, rfl⟩ | ⟨raised, rfl⟩⟩ := step_cases ticked
  · exact absurd running faulted
  · exact pcAfter_of_exec (u := u) executed kept
  · exact absurd unfaulted raised

end Sys2Proof.Proofs
end

section
/-! SUPPORT. Proofs about reset and the host's transactions (10_state.md R30, R31, 60_exceptions.md
R160 to R164). -/

namespace Sys2Proof.Proofs

open Sys2Proof.Machine Sys2Proof.Safety

/-! ### What a host transaction does -/

/-- A tick of the host is a step with the byte supplied, which is gone afterwards (R162). -/
theorem tickWith_of_step {s t : State} {rnd : Byte} (ticked : step (s.supplyRnd rnd) = .next t) :
    s.tickWith rnd = { t with rndIn := s.rndIn } := by
  rw [State.tickWith, ticked]

/-- A tick with `rnd` supplied that fetches `Rand` (R111, R162). -/
theorem step_rand_of_supplied {s : State} {x : Nibble} {kk : Byte} (rnd : Byte)
    (running : s.fault = .none) (fetched : s.fetchInstr = .rand x kk) :
    step (s.supplyRnd rnd) = .next ((s.supplyRnd rnd).advancePc.setV x (rnd &&& kk)).endTick :=
  step_of_fetchInstr (s := s.supplyRnd rnd) running fetched rfl running

theorem transact_mem_wf {s : State} (t : Transaction) (canonical : s.mem.wf) :
    (transact s t).1.mem.wf := by
  cases t with
  | reset => exact reset_mem_wf
  | tick rnd =>
    obtain ⟨t, ticked⟩ := step_next (s.supplyRnd rnd)
    rw [transact, tickWith_of_step ticked]
    exact step_mem_wf (t := t) ticked canonical
  | load bytes =>
    rw [transact]
    split
    · exact State.loadProgram_wf bytes canonical
    · exact canonical
  | setKey _ _ => exact canonical

/-! ### The reset contents of memory (R30, R31) -/

theorem fontset_range (a : Nat) :
    (Config.fontBase ≤ a ∧ a < Config.fontBase + Config.fontSize) ↔ (0x050 ≤ a ∧ a ≤ 0x09F) := by
  simp only [Config.fontBase, Config.fontSize]
  omega

theorem reset_readByte {a : Nat} (below : a < 4096) : State.reset.readByte a =
    if 0x050 ≤ a ∧ a ≤ 0x09F then fontset.getD (a - 0x050) 0#8 else 0#8 := by
  have unlisted : State.reset.readByte a = unlistedByte a :=
    congrArg unlistedByte (Nat.mod_eq_of_lt below)
  exact unlisted.trans (if_congr (fontset_range a) rfl rfl)

/-! ### The statements -/

/-- Settles O51: memory lists nothing, so it reads as the reset contents; the rest is as written. -/
theorem resetLeavesTheGivenState : Obligations.ResetLeavesTheGivenState := by
  have dark (k : Nat) : State.reset.pixel k = false := State.pixel_clearGfx State.reset k
  exact ⟨fun _ below => reset_readByte below, by decide, fun _ => Vector.getElem_replicate _, rfl,
    rfl, fun _ _ => Vector.getElem_replicate _, rfl, fun k _ => dark k, rfl, rfl,
    fun _ _ => Vector.getElem_replicate _, rfl⟩

/-- Settles O53: `reset` does not look at the state, and `set_key` is one write of one key. -/
theorem resetAndSetKeyTransactions : Obligations.ResetAndSetKeyTransactions := by
  refine fun s => ⟨rfl, fun k b => ⟨rfl, fun j h => ?_, rfl⟩⟩
  exact (Vector.getElem_set k.isLt h).trans (if_congr eq_comm rfl rfl)

/-- Settles O54: the supplied byte is the one `Rand` reads. -/
theorem tickSuppliesRnd : Obligations.TickSuppliesRnd := by
  refine fun s rnd => ⟨rfl, fun x kk running fetched => ?_⟩
  rw [transact, tickWith_of_step (step_rand_of_supplied rnd running fetched)]
  exact ⟨State.getV_setV_self s x _, (setV_onlyRegs s x _).1, rfl, rfl, rfl⟩

/-- Settles O55, by induction on the transactions, each of which keeps the form. -/
theorem hostRunsKeepMemoryCanonical : Obligations.HostRunsKeepMemoryCanonical := by
  intro s ts canonical
  induction ts generalizing s with
  | nil => exact canonical
  | cons t rest ih => exact ih _ (transact_mem_wf t canonical)

end Sys2Proof.Proofs
end

section
/-! SUPPORT. Proofs about runs of ticks that only count (40_tick_cycle.md R85): a jump to itself, a
`WaitKey` that holds, and zeroed memory (60_exceptions.md R172, 45_keypad_timers.md R142,
30_encoding.md R67). -/

namespace Sys2Proof.Proofs

open Sys2Proof.Machine Sys2Proof.Safety

/-! ### The timers over several ticks -/

/-- The state after the ends of `k` ticks: each timer lowered by `k`, or 0, and `k` bytes of `rnd`
gone. -/
def afterTickEnds (k : Nat) (s : State) : State :=
  { s with dt := BitVec.ofNat 8 (s.dt.toNat - k), st := BitVec.ofNat 8 (s.st.toNat - k),
           rndIn := s.rndIn.drop k }

theorem ofNat_countDown_sub (b : Byte) (k : Nat) :
    BitVec.ofNat 8 ((countDown b).toNat - k) = BitVec.ofNat 8 (b.toNat - (k + 1)) := by
  rw [countDown_toNat, Nat.sub_sub, Nat.add_comm 1 k]

theorem afterTickEnds_zero (s : State) : afterTickEnds 0 s = s := by
  simp [afterTickEnds]

theorem afterTickEnds_endTick (k : Nat) (s : State) :
    afterTickEnds k s.endTick = afterTickEnds (k + 1) s := by
  simp only [afterTickEnds, State.endTick_dt, State.endTick_st, State.endTick_rndIn,
    ofNat_countDown_sub, List.drop_tail]
  rfl

/-- A condition under which a tick does nothing but end, and which the end of a tick keeps, holds
the core in place for any number of ticks. -/
theorem run_of_holding {holding : State → Prop} (held : ∀ s, holding s → step s = .next s.endTick)
    (kept : ∀ s, holding s → holding s.endTick) (k : Nat) (s : State) (h : holding s) :
    Host.Core.run core k s = .next (afterTickEnds k s) := by
  induction k generalizing s with
  | zero => rw [core_run_zero, afterTickEnds_zero]
  | succ k ih => rw [core_run_succ k (held s h), ih _ (kept s h), afterTickEnds_endTick]

/-! ### Zero words -/

theorem fetchWord_congr {s t : State} (same_mem : t.mem = s.mem) (same_pc : t.pc = s.pc) :
    t.fetchWord = s.fetchWord := by
  simp only [State.fetchWord, State.readByte, same_mem, same_pc]

theorem afterSysRun_eq (k : Nat) (s : State) :
    afterSysRun k s = (afterTickEnds k s).setPc (s.pc + BitVec.ofNat 16 (2 * k)) := rfl

theorem pc_add_two (p : Word) (k : Nat) :
    p + 2#16 + BitVec.ofNat 16 (2 * k) = p + BitVec.ofNat 16 (2 * (k + 1)) := by
  rw [BitVec.add_assoc, Nat.mul_succ, Nat.add_comm (2 * k), BitVec.ofNat_add]

theorem afterSysRun_tick (k : Nat) (s : State) :
    afterSysRun k s.advancePc.endTick = afterSysRun (k + 1) s := by
  rw [afterSysRun_eq, afterSysRun_eq, afterTickEnds_endTick, State.endTick_pc, State.advancePc_pc,
    pc_add_two]
  rfl

/-- `k` zero words from `pc` on run `k` times `Sys(0)` (R67). -/
theorem run_of_zero_words {s : State} (k : Nat) (running : s.fault = .none)
    (zero : ∀ j, j < k → { s with pc := s.pc + BitVec.ofNat 16 (2 * j) }.fetchWord = 0#16) :
    Host.Core.run core k s = .next (afterSysRun k s) := by
  induction k generalizing s with
  | zero =>
    rw [core_run_zero, afterSysRun_eq, afterTickEnds_zero]
    simp [State.setPc]
  | succ k ih =>
    have first : s.fetchWord = 0#16 := by
      rw [← zero 0 k.succ_pos]
      exact fetchWord_congr rfl (BitVec.add_zero s.pc).symm
    rw [core_run_succ k (step_of_zero_word running first), ih (by exact running) fun j hj => ?_,
      afterSysRun_tick]
    rw [← zero (j + 1) (Nat.succ_lt_succ hj)]
    exact fetchWord_congr rfl (pc_add_two s.pc j)

theorem fetchWord_of_zero_bytes {s : State} (high : s.readByte s.pc.toNat = 0#8)
    (low : s.readByte (s.pc.toNat + 1) = 0#8) : s.fetchWord = 0#16 := by
  rw [State.fetchWord, high, low]
  rfl

/-! ### The core after reset -/

/-- R30: outside the fontset memory holds 0 after reset. -/
theorem reset_readByte_eq_zero {a : Nat} (outside : a % 4096 < 0x050 ∨ 0x09F < a % 4096) :
    State.reset.readByte a = 0#8 := by
  rw [← State.readByte_mod, reset_readByte (Nat.mod_lt _ (by decide)), if_neg (by omega)]

/-- The words that 1832 ticks from reset fetch are at 0x200 to 0x104E, so none of them touches the
fontset, whose first byte is also that at 0x1050 (R30, R41). -/
theorem reset_fetchWord_eq_zero {j : Nat} (hj : j < 1832) :
    { State.reset with pc := State.reset.pc + BitVec.ofNat 16 (2 * j) }.fetchWord = 0#16 := by
  have pc_eq : (State.reset.pc + BitVec.ofNat 16 (2 * j)).toNat = 0x200 + 2 * j := by
    rw [BitVec.toNat_add, BitVec.toNat_ofNat, show State.reset.pc.toNat = 0x200 from rfl]
    omega
  exact fetchWord_of_zero_bytes
    (by rw [pc_eq]; exact reset_readByte_eq_zero (by omega))
    (by rw [pc_eq]; exact reset_readByte_eq_zero (by omega))

theorem afterSysRun_reset (k : Nat) :
    afterSysRun k State.reset = { State.reset with pc := BitVec.ofNat 16 (0x200 + 2 * k) } := by
  simp [afterSysRun, State.reset, BitVec.ofNat_add]

/-! ### The statements -/

/-- Settles O17: a tick at a jump to itself only ends, and its end keeps `pc` and memory. -/
theorem selfJumpRunsOnlyTheTimers : Obligations.SelfJumpRunsOnlyTheTimers := by
  intro s k running at_self
  refine run_of_holding (holding := fun s => s.fault = .none ∧ AtSelfJump s) ?_
    (fun _ h => h) k s ⟨running, at_self⟩
  rintro s ⟨running, nnn, fetched, target⟩
  have jumped : exec (.jump nnn) s.advancePc = .next s :=
    congrArg (Host.Outcome.next <| s.setPc ·) target
  exact step_of_fetchInstr running fetched jumped running

/-- Settles O18: a tick at a `WaitKey` with no key down only ends, and its end keeps the keypad. -/
theorem waitKeyHoldsWhileNoKeyIsDown : Obligations.WaitKeyHoldsWhileNoKeyIsDown := by
  intro s x k running fetched none_down
  refine run_of_holding (holding := fun s => s.fault = .none ∧ s.fetchInstr = .waitKey x ∧
    ∀ j < 16, s.pressed j = false) ?_ (fun _ h => h) k s ⟨running, fetched, none_down⟩
  rintro s ⟨running, fetched, none_down⟩
  exact step_waitKey_of_no_key running fetched none_down

/-- Settles O56: by induction on the zero words; where all of memory is 0 every word is, and after
reset the first 1832 are. -/
theorem zeroedMemoryRunsAsSys : Obligations.ZeroedMemoryRunsAsSys := by
  refine ⟨fun s k running zero => run_of_zero_words k running zero, fun s k running zero => ?_,
    fun k few => ?_⟩
  · have zero_everywhere (a : Nat) : s.readByte a = 0#8 := by
      rw [← State.readByte_mod]
      exact zero _ (Nat.mod_lt _ (by decide))
    exact run_of_zero_words k running fun j _ =>
      fetchWord_of_zero_bytes (zero_everywhere _) (zero_everywhere _)
  · rw [run_of_zero_words (s := State.reset) k rfl fun j hj =>
      reset_fetchWord_eq_zero (hj.trans_le few), afterSysRun_reset]

end Sys2Proof.Proofs
end

section
/-! SUPPORT. Proof that the keypad and `rnd` reach no other instruction than those that read them
(40_tick_cycle.md R88): an instruction that reads neither commutes with any change of both. -/

namespace Sys2Proof.Proofs

open Sys2Proof.Machine Sys2Proof.Safety

/-- A change of the inputs of a tick: of the keypad and of the model's fields for `rnd`. -/
structure InputChange where
  keys : Vector Byte 16 → Vector Byte 16
  bytes : List Byte → List Byte
  draws : Nat → Nat

/-- The state with its inputs changed, and nothing else. -/
def InputChange.apply (c : InputChange) (s : State) : State :=
  { s with keypad := c.keys s.keypad, rndIn := c.bytes s.rndIn, draws := c.draws s.draws }

/-- The keypad replaced. -/
def changeKeys (keys : Vector Byte 16) : InputChange := ⟨fun _ => keys, id, id⟩

/-- The model's fields for `rnd` replaced. -/
def changeRnd (bytes : List Byte) (n : Nat) : InputChange := ⟨id, fun _ => bytes, fun _ => n⟩

variable (c : InputChange)

/-! ### The shared operations commute with a change of the inputs -/

theorem apply_skipIf (s : State) (taken : Bool) :
    (c.apply s).skipIf taken = c.apply (s.skipIf taken) := by
  cases taken <;> rfl

theorem apply_writeBytes (s : State) (a : Nat) (bs : List Byte) :
    (c.apply s).writeBytes a bs = c.apply (s.writeBytes a bs) := by
  induction bs generalizing s a with
  | nil => rfl
  | cons b rest ih => exact ih (s.writeByte a b) (a + 1)

theorem apply_setRegs (s : State) (k : Nat) (bs : List Byte) :
    (c.apply s).setRegs k bs = c.apply (s.setRegs k bs) := by
  induction bs generalizing s k with
  | nil => rfl
  | cons b rest ih => exact ih (s.setV (regIndex k) b) (k + 1)

theorem apply_flipPixel (s : State) (k : Nat) : (c.apply s).flipPixel k = c.apply (s.flipPixel k) := by
  by_cases inside : k / 64 < 32
  · rw [State.flipPixel, State.flipPixel, dif_pos inside, dif_pos inside]
    rfl
  · rw [State.flipPixel, State.flipPixel, dif_neg inside, dif_neg inside]

theorem apply_foldl_drawCell (cells : List Nat) (s : State) (hit : Bool) :
    cells.foldl drawCell (c.apply s, hit) = Prod.map c.apply id (cells.foldl drawCell (s, hit)) := by
  induction cells generalizing s hit with
  | nil => rfl
  | cons k rest ih =>
    have first : drawCell (c.apply s, hit) k = (c.apply (s.flipPixel k), hit || s.pixel k) :=
      congrArg (·, hit || s.pixel k) (apply_flipPixel c s k)
    rw [List.foldl_cons, first, ih]
    rfl

theorem apply_afterDraw (x y n : Nibble) (s : State) :
    afterDraw x y n (c.apply s) = c.apply (afterDraw x y n s) := by
  have same : drawn x y n (c.apply s) = Prod.map c.apply id (drawn x y n s) := by
    rw [drawn, drawn, drawSprite_eq_foldl, drawSprite_eq_foldl]
    exact apply_foldl_drawCell c _ s false
  rw [afterDraw, same]
  rfl

/-! ### Every instruction commutes with a change of the inputs it does not read -/

theorem exec_apply {i : Instr} (no_key : ¬ readsKeys i) (no_rand : ∀ x kk, i ≠ .rand x kk)
    (s : State) :
    exec i (c.apply s) = mapNext c.apply (exec i s) := by
  cases i with
  | rand x kk => exact absurd rfl (no_rand x kk)
  | skipIfKey _ | skipIfNotKey _ | waitKey _ => exact absurd trivial no_key
  | skipEqByte _ _ | skipNeByte _ _ | skipEqReg _ _ | skipNeReg _ _ =>
    exact congrArg Host.Outcome.next (apply_skipIf c s _)
  | bcd _ | dumpRegs _ => exact congrArg Host.Outcome.next (apply_writeBytes c s _ _)
  | loadRegs _ => exact congrArg Host.Outcome.next (apply_setRegs c s _ _)
  | draw x y n => exact congrArg Host.Outcome.next (apply_afterDraw c x y n s)
  | call nnn =>
    obtain ⟨full, overflowed⟩ | ⟨room, called⟩ := execCall_cases nnn s
    · exact (exec_call_of_full (s := c.apply s) nnn full).trans
        (congrArg (mapNext c.apply) overflowed.symm)
    · exact (exec_call_of_room (s := c.apply s) nnn room).trans
        (congrArg (mapNext c.apply) called.symm)
  | ret =>
    obtain ⟨empty, underflowed⟩ | ⟨top, pos, returned⟩ := execRet_cases s
    · exact (exec_ret_of_empty (s := c.apply s) empty).trans
        (congrArg (mapNext c.apply) underflowed.symm)
    · exact (exec_ret_of_pos (s := c.apply s) pos top).trans
        (congrArg (mapNext c.apply) returned.symm)
  | _ => rfl

/-- An instruction that reads no key commutes with a change of the keypad, `Rand` included. -/
theorem exec_apply_changeKeys {i : Instr} (no_key : ¬ readsKeys i) (keys : Vector Byte 16)
    (s : State) :
    exec i ((changeKeys keys).apply s) = mapNext (changeKeys keys).apply (exec i s) := by
  cases i with
  | rand x kk =>
    cases s with
    | mk mem v i pc stack sp gfx dt st keypad fault rndIn draws => cases rndIn <;> rfl
  | _ => exact exec_apply _ no_key nofun s

/-- An instruction that is not `Rand` commutes with a change of the fields for `rnd`, the key
instructions included. -/
theorem exec_apply_changeRnd {i : Instr} (no_rand : ∀ x kk, i ≠ .rand x kk) (bytes : List Byte)
    (n : Nat) (s : State) :
    exec i ((changeRnd bytes n).apply s) = mapNext (changeRnd bytes n).apply (exec i s) := by
  cases i with
  | skipIfKey _ | skipIfNotKey _ => exact congrArg Host.Outcome.next (apply_skipIf _ s _)
  | waitKey x =>
    obtain ⟨none_down, held⟩ | ⟨k, below, down, least, taken⟩ := execWaitKey_cases x s
    · exact (execWaitKey_of_no_key (s := (changeRnd bytes n).apply s) x none_down).trans
        (congrArg (mapNext (changeRnd bytes n).apply) held.symm)
    · exact (execWaitKey_of_least_key (s := (changeRnd bytes n).apply s) x below down least).trans
        (congrArg (mapNext (changeRnd bytes n).apply) taken.symm)
  | _ => exact exec_apply _ id no_rand s

/-! ### The tick -/

variable {c} {forget : State → State}

theorem finishTick_apply (unseen : ∀ t, forget (c.apply t) = forget t)
    (ended : ∀ t, forget (c.apply t).endTick = forget t.endTick) (t : State) :
    forget (c.apply t).finishTick = forget t.finishTick := by
  by_cases running : t.fault = .none
  · rw [State.finishTick_of_running running, State.finishTick_of_running (s := c.apply t) running,
      ended]
  · rw [State.finishTick_of_faulted running, State.finishTick_of_faulted (s := c.apply t) running,
      unseen]

/-- If what a tick executes commutes with a change of the inputs that `forget` leaves out of sight,
before and after the end of the tick, then the results of the two ticks look the same. -/
theorem mapNext_step_apply {s : State}
    (executed : exec s.fetchInstr (c.apply s.advancePc) =
      mapNext c.apply (exec s.fetchInstr s.advancePc))
    (unseen : ∀ t, forget (c.apply t) = forget t)
    (ended : ∀ t, forget (c.apply t).endTick = forget t.endTick) :
    mapNext forget (step (c.apply s)) = mapNext forget (step s) := by
  by_cases running : s.fault = .none
  · obtain ⟨u, left⟩ := exec_next s.fetchInstr s.advancePc
    rw [left] at executed
    rw [step_of_running running, left, step_of_running (s := c.apply s) running,
      show exec (c.apply s).fetchInstr (c.apply s).advancePc = .next (c.apply u) from executed]
    exact congrArg Host.Outcome.next (finishTick_apply unseen ended u)
  · rw [step_of_faulted running, step_of_faulted (s := c.apply s) running]
    exact congrArg Host.Outcome.next (unseen s)

end Sys2Proof.Proofs
end

section
/-! SUPPORT. The statement about the inputs of a tick (40_tick_cycle.md R88). -/

namespace Sys2Proof.Proofs

open Sys2Proof.Machine Sys2Proof.Safety

/-- Settles O16: a tick commutes with a change of the inputs that its instruction does not read, and
the change is out of sight in the result. -/
theorem keypadAndRndReachNoOtherInstruction : Obligations.KeypadAndRndReachNoOtherInstruction := by
  refine ⟨fun s keys no_key => ?_, fun s bytes n no_rand => ?_⟩
  · exact mapNext_step_apply (c := changeKeys keys) (exec_apply_changeKeys no_key keys _)
      (fun _ => rfl) fun _ => rfl
  · exact mapNext_step_apply (c := changeRnd bytes n) (exec_apply_changeRnd no_rand bytes n _)
      (fun _ => rfl) fun _ => rfl

end Sys2Proof.Proofs
end
